-- ==== Sys2Proof/Word.lean ====
section
/-! DEFINITION. The word types of the block: bytes, the 16-bit and 32-bit quantities, and byte sequences
in transmission order (00_scope.md R8, R9). -/

namespace Sys2Proof

/-- A byte, the unit of transfer (R51). -/
abbrev Byte := BitVec 8

/-- A 16-bit unsigned quantity: an address, a count, a register word, a checksum. -/
abbrev U16 := BitVec 16

/-- A 32-bit pattern (R170). -/
abbrev U32 := BitVec 32

/-- A byte sequence in transmission order: the head is sent or received first (R9). -/
abbrev Bytes := List (BitVec 8)

end Sys2Proof
end

