-- ==== Sys2Proof/Config.lean ====
section
/-! DEFINITION. The parameters of the block (00_scope.md R7), the constants the source fixes, and the one
free value. A machine's parameters stand in its State as plain data (field cfg) that no operation writes
(R281), so that a statement about every state holds for every choice of them (log entry 2). -/

namespace Sys2Proof

/-- What the 16-bit field of a WriteRegister request holds, a function of the number `k` of registers
(parameter WRREG_FIELD16, R7, R148, D7). `table` lists a value for each `k` from 0 to 127, so that every
function of `k` is one of these. -/
inductive Field16 where
  | registerCount
  | byteCount
  | table (values : Vector U16 128)
deriving DecidableEq, Repr

/-- The parameters of R7 but SLAVE_ID, which is the operand of RESET, and T_TIMEOUT, which the source fixes.
`none` stands for unbounded. -/
structure Config where
  /-- T_TICK, ms: the environment's, read by no rule. -/
  tTick : Nat
  /-- T_GAP, ms: the least spacing of two frame writes. -/
  tGap : Nat
  /-- QDEPTH: the most queued requests, the in-flight one not counted. -/
  queueDepth : Option Nat
  /-- RXCAP: the most bytes receiveBuffer holds. -/
  rxCapacity : Option Nat
  /-- W_T: the width in bits of a time value. -/
  timeBits : Option Nat
  /-- WRREG_FIELD16. -/
  wrregField16 : Field16
  /-- CLEAR_RX_ON_FOREIGN. -/
  clearRxOnForeign : Bool
deriving DecidableEq, Repr

/-- The defaults of R7. -/
def Config.default : Config :=
  { tTick := 100, tGap := 250, queueDepth := none, rxCapacity := none, timeBits := none,
    wrregField16 := .registerCount, clearRxOnForeign := true }

/-- T_TIMEOUT, fixed by the source at 5000 ms (R7, R190). -/
def tTimeout : Nat := 5000

/-- The slave id the test vectors use (R7): the operand of the RESET that `State.reset` is the result of.
DESIGN CHOICE, log entry 1. -/
def defaultSlaveId : Byte := 1

/-- FREE VALUE: what slaveId holds after a RESET that raised InvalidIdentifier, which the spec leaves
unspecified (R35, 93_implementation_defined.md U3). The argument is State.freeCount. Log entry 3. -/
opaque Config.freeSlaveId : Nat → Byte

end Sys2Proof
end

