-- ==== Sys2Proof/Machine/Bytes.lean ====
section
/-! DEFINITION. Packing of 16-bit and 32-bit quantities into bytes and back (00_scope.md R8, R9;
20_memory.md R53): every field is high byte first but the checksum, which is low byte first. -/

namespace Sys2Proof.Machine

/-- Bits 15:8. -/
def hi8 (v : U16) : Byte := v.extractLsb' 8 8

/-- Bits 7:0. -/
def lo8 (v : U16) : Byte := v.extractLsb' 0 8

/-- `h * 256 + l`. -/
def joinBytes (h l : Byte) : U16 := h ++ l

/-- Big-endian packing (R9). -/
def be16 (v : U16) : Bytes := [hi8 v, lo8 v]

/-- Little-endian packing (R9), used by the checksum only (R53, R91). -/
def le16 (v : U16) : Bytes := [lo8 v, hi8 v]

/-- The words of a WriteRegister request, each high byte first (R90). -/
def be16s (ws : List U16) : Bytes := ws.flatMap be16

/-- The four bytes of a 32-bit pattern, most significant first (R53, R170). -/
def be32 (x : U32) : Bytes :=
  [x.extractLsb' 24 8, x.extractLsb' 16 8, x.extractLsb' 8 8, x.extractLsb' 0 8]

/-- The 32-bit pattern of four bytes, most significant first (R171). -/
def joinBytes4 (b0 b1 b2 b3 : Byte) : U32 := b0 ++ b1 ++ b2 ++ b3

/-- The first `n` bytes of a number, least significant byte first. -/
def leBytes : Nat → Nat → Bytes
  | 0, _ => []
  | n + 1, w => BitVec.ofNat 8 w :: leBytes n (w / 256)

end Sys2Proof.Machine
end

