-- ==== Sys2Proof/Syntax.lean ====
section
/-! DEFINITION. The instructions: one constructor for each row of spec/opcode_table.json, in its three
spaces wire-request, wire-response and host-op (30_encoding.md R98 to R100). -/

namespace Sys2Proof

/-- The address operand as the client supplies it (R145, D22): a single integer, a pair of integers (high
byte first), or any other shape, which ADDR rejects. -/
inductive AddrOperand where
  | int (v : Int)
  | pair (h l : Int)
  | other
deriving DecidableEq, Repr

/-- One operation. A wire row carries every field of its frame, the received checksum `crc` among them. -/
inductive Instr where
  /-- RDCOIL.REQ, format RQ4 (R82). -/
  | rdcoilReq (sid : Byte) (address count crc : U16)
  /-- RDREG.REQ, format RQ4 (R82). -/
  | rdregReq (sid : Byte) (address count crc : U16)
  /-- WRCOIL.REQ, format RQ4 (R82): the value bytes are FF 00 or 00 00. -/
  | wrcoilReq (sid : Byte) (address : U16) (value : Bool) (crc : U16)
  /-- WRREG.REQ, format RQW (R83): byteCount is twice the number of words. -/
  | wrregReq (sid : Byte) (address field16 : U16) (words : List U16) (crc : U16)
  /-- RDCOIL.RSP, format RSR (R84): `count` is the declared byte-length, which `data` need not have. -/
  | rdcoilRsp (sid count : Byte) (data : Bytes) (crc : U16)
  /-- RDREG.RSP, format RSR (R84). -/
  | rdregRsp (sid count : Byte) (data : Bytes) (crc : U16)
  /-- WRCOIL.RSP, format RSW (R85): four payload bytes that are not interpreted. -/
  | wrcoilRsp (sid x0 x1 x2 x3 : Byte) (crc : U16)
  /-- WRREG.RSP, format RSW (R85). -/
  | wrregRsp (sid x0 x1 x2 x3 : Byte) (crc : U16)
  /-- UNKNOWN.RSP (R94 (b)): any other function code. -/
  | unknownRsp (sid fc : Byte) (payload : Bytes) (crc : U16)
  /-- ENQ.RDCOIL (R182). -/
  | enqRdcoil (a : AddrOperand) (count : U16) (now : Nat)
  /-- ENQ.RDREG (R183). -/
  | enqRdreg (a : AddrOperand) (n : U16) (now : Nat)
  /-- ENQ.WRCOIL (R184). -/
  | enqWrcoil (a : AddrOperand) (value : Bool) (now : Nat)
  /-- ENQ.WRREG (R185). -/
  | enqWrreg (a : AddrOperand) (words : List U16) (now : Nat)
  /-- TICK (R190). -/
  | tick (now : Nat)
  /-- RX (R210). -/
  | rx (chunk : Bytes)
  /-- TR.OPENED (R262). -/
  | trOpened
  /-- TR.CLOSED (R262). -/
  | trClosed
  /-- TR.ERROR (R262): `cause` is opaque and passed through. -/
  | trError (cause : Bytes)
  /-- RESET (R280): the slave id offered, an integer. -/
  | reset (s : Int)
  /-- CRC16 (R120). -/
  | crc16 (b : Bytes)
  /-- CRC.APPEND (R122). -/
  | crcAppend (b : Bytes)
  /-- CRC.CHECK (R123). -/
  | crcCheck (f : Bytes)
  /-- ENCODE (R140). -/
  | frameEncode (sid fc : Byte) (parts : List Bytes)
  /-- DECODE (R141). -/
  | frameDecode (b : Bytes)
  /-- F2W (R170). -/
  | f2w (x : U32)
  /-- W2F (R171). -/
  | w2f (b : Bytes)
deriving DecidableEq, Repr

/-- The three spaces of the opcode table (R100). -/
inductive Space where
  | wireRequest
  | wireResponse
  | hostOp
deriving DecidableEq, Repr

end Sys2Proof
end

