-- ==== Sys2Proof/WellFormed.lean ====
section
/-! DEFINITION. Which terms of Instr are instructions of the opcode table: the terms whose fields fit the
row's layout. Every other domain rule is an operation's own (it is refused or raised when it runs). -/

namespace Sys2Proof

/-- A function code that one of the four named rows uses (R86). -/
def isNamedFunctionCode (fc : Byte) : Bool :=
  fc == 0x01#8 || fc == 0x03#8 || fc == 0x05#8 || fc == 0x10#8

/-- WRREG.REQ holds at most 127 words, since the byte byteCount is twice their number (R83, R148), and
UNKNOWN.RSP is the fallback row, whose function code is none of the four (R94 (b), R100). The fields of
every other row fit it whatever their values. -/
def Instr.wellFormed : Instr → Bool
  | .rdcoilReq _ _ _ _ => true
  | .rdregReq _ _ _ _ => true
  | .wrcoilReq _ _ _ _ => true
  | .wrregReq _ _ _ words _ => words.length ≤ 127
  | .rdcoilRsp _ _ _ _ => true
  | .rdregRsp _ _ _ _ => true
  | .wrcoilRsp _ _ _ _ _ _ => true
  | .wrregRsp _ _ _ _ _ _ => true
  | .unknownRsp _ fc _ _ => !isNamedFunctionCode fc
  | .enqRdcoil _ _ _ => true
  | .enqRdreg _ _ _ => true
  | .enqWrcoil _ _ _ => true
  | .enqWrreg _ _ _ => true
  | .tick _ => true
  | .rx _ => true
  | .trOpened => true
  | .trClosed => true
  | .trError _ => true
  | .reset _ => true
  | .crc16 _ => true
  | .crcAppend _ => true
  | .crcCheck _ => true
  | .frameEncode _ _ _ => true
  | .frameDecode _ => true
  | .f2w _ => true
  | .w2f _ => true

/-- The instruction's fields fit its row. -/
abbrev WellFormed (i : Instr) : Prop := i.wellFormed = true

end Sys2Proof
end

