-- ==== Sys2Proof/Decode.lean ====
section
/-! DEFINITION. The decoder, total on any bytes and rejecting by name, and the encoder after it.

Two layers. The WIRE layer is the spec's own: a frame's bytes as 30_encoding.md R82 to R85 lay them out.
The TRACE layer presents operations to the block as bytes (R98, R99): a host operation is its selector byte
(R99) and then its operands, for which the spec gives no layout, so that the operand layouts are the
model's (DESIGN CHOICE, log entry 8); a wire frame is a tag byte that says which wire space it belongs to,
its length, and its bytes (DESIGN CHOICE, log entry 9). -/

namespace Sys2Proof

open Machine

/-- Why bytes are no operation. -/
inductive DecodeError where
  /-- An operand ends before its last byte. -/
  | endOfBytes
  /-- The first byte is no selector of R99 and no tag of a wire space. -/
  | unknownSelector (b : Byte)
  /-- A boolean or an address operand begins with a byte that names no form. -/
  | badOperandTag (b : Byte)
  /-- A number has a leading group of zeros. -/
  | paddedNumber
  /-- The length of an operand is below zero. -/
  | negativeLength
  /-- The frame is shorter or longer than its row's layout. -/
  | badFrameLength
  /-- The engine encodes only four function codes (R94 (a)). -/
  | unknownRequestCode (fc : Byte)
  /-- The value bytes of a WriteCoil request are neither FF 00 nor 00 00 (R89). -/
  | badCoilValue (hi lo : Byte)
  /-- The byteCount of a WriteRegister request is odd (R90). -/
  | badByteCount (bc : Byte)
deriving DecidableEq, Repr

/-! ### Operand layouts of the trace (log entry 8) -/

/-- A natural number, seven bits a byte, the lowest seven first, bit 7 set on every byte but the last. -/
def decNat : Bytes → Except DecodeError (Nat × Bytes)
  | [] => .error .endOfBytes
  | b :: bs =>
    if b.toNat < 128 then .ok (b.toNat, bs)
    else match decNat bs with
      | .error e => .error e
      | .ok (n, rest) => if n = 0 then .error .paddedNumber else .ok (b.toNat - 128 + 128 * n, rest)

/-- An integer: an even number `2 v` stands for `v`, an odd number `2 v + 1` for `-v - 1`. -/
def decInt (bs : Bytes) : Except DecodeError (Int × Bytes) :=
  match decNat bs with
  | .error e => .error e
  | .ok (n, rest) => if n % 2 = 0 then .ok (Int.ofNat (n / 2), rest) else .ok (Int.negSucc (n / 2), rest)

/-- The next `n` bytes. -/
def takeBytes (n : Nat) (bs : Bytes) : Except DecodeError (Bytes × Bytes) :=
  if bs.length < n then .error .endOfBytes else .ok (bs.take n, bs.drop n)

/-- A byte sequence: its length less `least`, the least length its operation allows, and then its bytes. -/
def decBytes (least : Nat) (bs : Bytes) : Except DecodeError (Bytes × Bytes) :=
  match decInt bs with
  | .error e => .error e
  | .ok (d, rest) =>
    if (least : Int) + d < 0 then .error .negativeLength else takeBytes ((least : Int) + d).toNat rest

/-- One byte. -/
def decByte : Bytes → Except DecodeError (Byte × Bytes)
  | [] => .error .endOfBytes
  | b :: bs => .ok (b, bs)

/-- A 16-bit quantity, high byte first. -/
def decU16 : Bytes → Except DecodeError (U16 × Bytes)
  | h :: l :: bs => .ok (joinBytes h l, bs)
  | _ => .error .endOfBytes

/-- A 32-bit pattern, most significant byte first. -/
def decU32 : Bytes → Except DecodeError (U32 × Bytes)
  | b0 :: b1 :: b2 :: b3 :: bs => .ok (joinBytes4 b0 b1 b2 b3, bs)
  | _ => .error .endOfBytes

/-- A boolean: 00 is false, 01 is true. -/
def decBool : Bytes → Except DecodeError (Bool × Bytes)
  | [] => .error .endOfBytes
  | b :: bs =>
    if b = 0x00#8 then .ok (false, bs) else if b = 0x01#8 then .ok (true, bs)
    else .error (.badOperandTag b)

/-- An address operand: 00 and an integer, 01 and two integers, or 02 (R145). -/
def decAddr : Bytes → Except DecodeError (AddrOperand × Bytes)
  | [] => .error .endOfBytes
  | b :: bs =>
    if b = 0x00#8 then do
      let (v, bs) ← decInt bs
      .ok (.int v, bs)
    else if b = 0x01#8 then do
      let (h, bs) ← decInt bs
      let (l, bs) ← decInt bs
      .ok (.pair h l, bs)
    else if b = 0x02#8 then .ok (.other, bs)
    else .error (.badOperandTag b)

/-- `k` words. -/
def decWordsN : Nat → Bytes → Except DecodeError (List U16 × Bytes)
  | 0, bs => .ok ([], bs)
  | k + 1, bs => do
    let (w, bs) ← decU16 bs
    let (ws, bs) ← decWordsN k bs
    .ok (w :: ws, bs)

/-- A sequence of words: their number and then the words. -/
def decWords (bs : Bytes) : Except DecodeError (List U16 × Bytes) := do
  let (k, bs) ← decNat bs
  decWordsN k bs

/-- `k` byte sequences. -/
def decPartsN : Nat → Bytes → Except DecodeError (List Bytes × Bytes)
  | 0, bs => .ok ([], bs)
  | k + 1, bs => do
    let (p, bs) ← decBytes 0 bs
    let (ps, bs) ← decPartsN k bs
    .ok (p :: ps, bs)

/-- A list of byte sequences: their number and then each. -/
def decParts (bs : Bytes) : Except DecodeError (List Bytes × Bytes) := do
  let (k, bs) ← decNat bs
  decPartsN k bs

/-! ### Wire frames (30_encoding.md R82 to R85) -/

/-- The words of big-endian byte pairs, and `none` for an odd number of bytes. -/
def pairWords : Bytes → Option (List U16)
  | [] => some []
  | [_] => none
  | h :: l :: bs => (pairWords bs).map (joinBytes h l :: ·)

/-- Format RQ4 past its first two bytes (R82). -/
def decodeRq4 (sid fc : Byte) : Bytes → Except DecodeError Instr
  | [ah, al, xh, xl, cl, ch] =>
    if fc = 0x01#8 then .ok (.rdcoilReq sid (joinBytes ah al) (joinBytes xh xl) (joinBytes ch cl))
    else if fc = 0x03#8 then .ok (.rdregReq sid (joinBytes ah al) (joinBytes xh xl) (joinBytes ch cl))
    else if xl = 0x00#8 ∧ xh = 0xFF#8 then .ok (.wrcoilReq sid (joinBytes ah al) true (joinBytes ch cl))
    else if xl = 0x00#8 ∧ xh = 0x00#8 then .ok (.wrcoilReq sid (joinBytes ah al) false (joinBytes ch cl))
    else .error (.badCoilValue xh xl)
  | _ => .error .badFrameLength

/-- Format RQW past its first two bytes (R83): the length is `9 + bc` in all. -/
def decodeRqw (sid : Byte) : Bytes → Except DecodeError Instr
  | ah :: al :: fh :: fl :: bc :: rest =>
    if rest.length ≠ bc.toNat + 2 then .error .badFrameLength
    else match pairWords (rest.take bc.toNat), rest.drop bc.toNat with
      | some words, [cl, ch] =>
        .ok (.wrregReq sid (joinBytes ah al) (joinBytes fh fl) words (joinBytes ch cl))
      | _, _ => .error (.badByteCount bc)
  | _ => .error .badFrameLength

/-- A whole request frame (R81): the row is selected by byte 1. -/
def decodeRequest : Bytes → Except DecodeError Instr
  | sid :: fc :: rest =>
    if fc = 0x10#8 then decodeRqw sid rest
    else if fc = 0x01#8 ∨ fc = 0x03#8 ∨ fc = 0x05#8 then decodeRq4 sid fc rest
    else .error (.unknownRequestCode fc)
  | _ => .error .badFrameLength

/-- Format RSR past its first two bytes, the checksum taken off (R84). -/
def decodeRsr (sid fc : Byte) (crc : U16) : Bytes → Except DecodeError Instr
  | n :: data => if fc = 0x01#8 then .ok (.rdcoilRsp sid n data crc) else .ok (.rdregRsp sid n data crc)
  | [] => .error .badFrameLength

/-- Format RSW past its first two bytes, the checksum taken off (R85). -/
def decodeRsw (sid fc : Byte) (crc : U16) : Bytes → Except DecodeError Instr
  | [x0, x1, x2, x3] =>
    if fc = 0x05#8 then .ok (.wrcoilRsp sid x0 x1 x2 x3 crc) else .ok (.wrregRsp sid x0 x1 x2 x3 crc)
  | _ => .error .badFrameLength

/-- A whole response frame (R81): the row is selected by byte 1, any code but the four taking the fallback
row (R94 (b), R100); the checksum is the last two bytes (R80). -/
def decodeResponse : Bytes → Except DecodeError Instr
  | sid :: fc :: rest =>
    match rest.drop (rest.length - 2) with
    | [cl, ch] =>
      let payload := rest.take (rest.length - 2)
      if fc = 0x01#8 ∨ fc = 0x03#8 then decodeRsr sid fc (joinBytes ch cl) payload
      else if fc = 0x05#8 ∨ fc = 0x10#8 then decodeRsw sid fc (joinBytes ch cl) payload
      else .ok (.unknownRsp sid fc payload (joinBytes ch cl))
    | _ => .error .badFrameLength
  | _ => .error .badFrameLength

/-! ### The trace -/

/-- The tag byte of a wire-request frame in the trace (log entry 9). -/
def requestTag : Byte := 0xD0

/-- The tag byte of a wire-response frame in the trace (log entry 9). -/
def responseTag : Byte := 0xD1

/-- The operands of the host operation whose selector is `op` (R99), in the table's order. -/
def decodeHostOp (op : Byte) (bs : Bytes) : Except DecodeError (Instr × Bytes) :=
  match op.toNat with
  | 0x01 => do
    let (a, bs) ← decAddr bs
    let (count, bs) ← decU16 bs
    let (now, bs) ← decNat bs
    .ok (.enqRdcoil a count now, bs)
  | 0x03 => do
    let (a, bs) ← decAddr bs
    let (n, bs) ← decU16 bs
    let (now, bs) ← decNat bs
    .ok (.enqRdreg a n now, bs)
  | 0x05 => do
    let (a, bs) ← decAddr bs
    let (v, bs) ← decBool bs
    let (now, bs) ← decNat bs
    .ok (.enqWrcoil a v now, bs)
  | 0x10 => do
    let (a, bs) ← decAddr bs
    let (ws, bs) ← decWords bs
    let (now, bs) ← decNat bs
    .ok (.enqWrreg a ws now, bs)
  | 0xF0 => do
    let (now, bs) ← decNat bs
    .ok (.tick now, bs)
  | 0xF1 => do
    let (chunk, bs) ← decBytes 0 bs
    .ok (.rx chunk, bs)
  | 0xF2 => .ok (.trOpened, bs)
  | 0xF3 => .ok (.trClosed, bs)
  | 0xF4 => do
    let (cause, bs) ← decBytes 0 bs
    .ok (.trError cause, bs)
  | 0xFF => do
    let (s, bs) ← decInt bs
    .ok (.reset s, bs)
  | 0xE0 => do
    let (b, bs) ← decBytes 0 bs
    .ok (.crc16 b, bs)
  | 0xE1 => do
    let (b, bs) ← decBytes 0 bs
    .ok (.crcAppend b, bs)
  | 0xE2 => do
    let (f, bs) ← decBytes 2 bs
    .ok (.crcCheck f, bs)
  | 0xE3 => do
    let (sid, bs) ← decByte bs
    let (fc, bs) ← decByte bs
    let (parts, bs) ← decParts bs
    .ok (.frameEncode sid fc parts, bs)
  | 0xE4 => do
    let (b, bs) ← decBytes 4 bs
    .ok (.frameDecode b, bs)
  | 0xE5 => do
    let (x, bs) ← decU32 bs
    .ok (.f2w x, bs)
  | 0xE6 => do
    let (b, bs) ← decBytes 4 bs
    .ok (.w2f b, bs)
  | _ => .error (.unknownSelector op)

/-- The operation at the front of a trace and the bytes after it. -/
def decode : Bytes → Except DecodeError (Instr × Bytes)
  | [] => .error .endOfBytes
  | op :: bs =>
    if op = requestTag then do
      let (frame, bs) ← decBytes 0 bs
      let i ← decodeRequest frame
      .ok (i, bs)
    else if op = responseTag then do
      let (frame, bs) ← decBytes 0 bs
      let i ← decodeResponse frame
      .ok (i, bs)
    else decodeHostOp op bs

/-! ### The encoder -/

/-- See `decNat`; the fuel is an upper bound of the number. -/
def encNatFuel : Nat → Nat → Bytes
  | 0, n => [BitVec.ofNat 8 n]
  | fuel + 1, n =>
    if n < 128 then [BitVec.ofNat 8 n] else BitVec.ofNat 8 (n % 128 + 128) :: encNatFuel fuel (n / 128)

/-- See `decNat`. -/
def encNat (n : Nat) : Bytes := encNatFuel n n

/-- See `decInt`. -/
def encInt : Int → Bytes
  | .ofNat v => encNat (2 * v)
  | .negSucc v => encNat (2 * v + 1)

/-- See `decBytes`. -/
def encBytes (least : Nat) (b : Bytes) : Bytes := encInt ((b.length : Int) - least) ++ b

/-- See `decBool`. -/
def encBool (v : Bool) : Bytes := [if v then 0x01 else 0x00]

/-- See `decAddr`. -/
def encAddr : AddrOperand → Bytes
  | .int v => 0x00#8 :: encInt v
  | .pair h l => 0x01#8 :: (encInt h ++ encInt l)
  | .other => [0x02]

/-- See `decWords`. -/
def encWords (ws : List U16) : Bytes := encNat ws.length ++ be16s ws

/-- See `decParts`. -/
def encParts (ps : List Bytes) : Bytes := encNat ps.length ++ ps.flatMap (encBytes 0)

/-- The two value bytes of a WriteCoil request (R89). -/
def coilBytes (v : Bool) : Bytes := if v then [0xFF, 0x00] else [0x00, 0x00]

/-- A frame without its checksum, then the checksum low byte first (R80, R91). -/
def withTrailer (body : Bytes) (crc : U16) : Bytes := body ++ le16 crc

/-- The bytes on the wire of a wire row, in transmission order (R82 to R85), and `none` for a host operation. -/
def frameBytes : Instr → Option Bytes
  | .rdcoilReq sid address count crc => some (withTrailer ([sid, 0x01] ++ be16 address ++ be16 count) crc)
  | .rdregReq sid address count crc => some (withTrailer ([sid, 0x03] ++ be16 address ++ be16 count) crc)
  | .wrcoilReq sid address value crc => some (withTrailer ([sid, 0x05] ++ be16 address ++ coilBytes value) crc)
  | .wrregReq sid address field16 words crc =>
    some (withTrailer ([sid, 0x10] ++ be16 address ++ be16 field16 ++
      BitVec.ofNat 8 (2 * words.length) :: be16s words) crc)
  | .rdcoilRsp sid count data crc => some (withTrailer ([sid, 0x01, count] ++ data) crc)
  | .rdregRsp sid count data crc => some (withTrailer ([sid, 0x03, count] ++ data) crc)
  | .wrcoilRsp sid x0 x1 x2 x3 crc => some (withTrailer [sid, 0x05, x0, x1, x2, x3] crc)
  | .wrregRsp sid x0 x1 x2 x3 crc => some (withTrailer [sid, 0x10, x0, x1, x2, x3] crc)
  | .unknownRsp sid fc payload crc => some (withTrailer (sid :: fc :: payload) crc)
  | .enqRdcoil _ _ _ => none
  | .enqRdreg _ _ _ => none
  | .enqWrcoil _ _ _ => none
  | .enqWrreg _ _ _ => none
  | .tick _ => none
  | .rx _ => none
  | .trOpened => none
  | .trClosed => none
  | .trError _ => none
  | .reset _ => none
  | .crc16 _ => none
  | .crcAppend _ => none
  | .crcCheck _ => none
  | .frameEncode _ _ _ => none
  | .frameDecode _ => none
  | .f2w _ => none
  | .w2f _ => none

/-- The space of a row (R100). -/
def Instr.space : Instr → Space
  | .rdcoilReq _ _ _ _ => .wireRequest
  | .rdregReq _ _ _ _ => .wireRequest
  | .wrcoilReq _ _ _ _ => .wireRequest
  | .wrregReq _ _ _ _ _ => .wireRequest
  | .rdcoilRsp _ _ _ _ => .wireResponse
  | .rdregRsp _ _ _ _ => .wireResponse
  | .wrcoilRsp _ _ _ _ _ _ => .wireResponse
  | .wrregRsp _ _ _ _ _ _ => .wireResponse
  | .unknownRsp _ _ _ _ => .wireResponse
  | .enqRdcoil _ _ _ => .hostOp
  | .enqRdreg _ _ _ => .hostOp
  | .enqWrcoil _ _ _ => .hostOp
  | .enqWrreg _ _ _ => .hostOp
  | .tick _ => .hostOp
  | .rx _ => .hostOp
  | .trOpened => .hostOp
  | .trClosed => .hostOp
  | .trError _ => .hostOp
  | .reset _ => .hostOp
  | .crc16 _ => .hostOp
  | .crcAppend _ => .hostOp
  | .crcCheck _ => .hostOp
  | .frameEncode _ _ _ => .hostOp
  | .frameDecode _ => .hostOp
  | .f2w _ => .hostOp
  | .w2f _ => .hostOp

/-- The selector byte of the row (R86 for the wire spaces, R99 for host operations). -/
def Instr.selector : Instr → Byte
  | .rdcoilReq _ _ _ _ => 0x01
  | .rdregReq _ _ _ _ => 0x03
  | .wrcoilReq _ _ _ _ => 0x05
  | .wrregReq _ _ _ _ _ => 0x10
  | .rdcoilRsp _ _ _ _ => 0x01
  | .rdregRsp _ _ _ _ => 0x03
  | .wrcoilRsp _ _ _ _ _ _ => 0x05
  | .wrregRsp _ _ _ _ _ _ => 0x10
  | .unknownRsp _ fc _ _ => fc
  | .enqRdcoil _ _ _ => 0x01
  | .enqRdreg _ _ _ => 0x03
  | .enqWrcoil _ _ _ => 0x05
  | .enqWrreg _ _ _ => 0x10
  | .tick _ => 0xF0
  | .rx _ => 0xF1
  | .trOpened => 0xF2
  | .trClosed => 0xF3
  | .trError _ => 0xF4
  | .reset _ => 0xFF
  | .crc16 _ => 0xE0
  | .crcAppend _ => 0xE1
  | .crcCheck _ => 0xE2
  | .frameEncode _ _ _ => 0xE3
  | .frameDecode _ => 0xE4
  | .f2w _ => 0xE5
  | .w2f _ => 0xE6

/-- The operands of a host operation in the trace, in the table's order; a wire row has none here. -/
def encodeOperands : Instr → Bytes
  | .rdcoilReq _ _ _ _ => []
  | .rdregReq _ _ _ _ => []
  | .wrcoilReq _ _ _ _ => []
  | .wrregReq _ _ _ _ _ => []
  | .rdcoilRsp _ _ _ _ => []
  | .rdregRsp _ _ _ _ => []
  | .wrcoilRsp _ _ _ _ _ _ => []
  | .wrregRsp _ _ _ _ _ _ => []
  | .unknownRsp _ _ _ _ => []
  | .enqRdcoil a count now => encAddr a ++ be16 count ++ encNat now
  | .enqRdreg a n now => encAddr a ++ be16 n ++ encNat now
  | .enqWrcoil a value now => encAddr a ++ encBool value ++ encNat now
  | .enqWrreg a words now => encAddr a ++ encWords words ++ encNat now
  | .tick now => encNat now
  | .rx chunk => encBytes 0 chunk
  | .trOpened => []
  | .trClosed => []
  | .trError cause => encBytes 0 cause
  | .reset s => encInt s
  | .crc16 b => encBytes 0 b
  | .crcAppend b => encBytes 0 b
  | .crcCheck f => encBytes 2 f
  | .frameEncode sid fc parts => [sid, fc] ++ encParts parts
  | .frameDecode b => encBytes 4 b
  | .f2w x => be32 x
  | .w2f b => encBytes 4 b

/-- An operation as the trace presents it. -/
def encode (i : Instr) : Bytes :=
  match i.space with
  | .wireRequest => requestTag :: encBytes 0 ((frameBytes i).getD [])
  | .wireResponse => responseTag :: encBytes 0 ((frameBytes i).getD [])
  | .hostOp => i.selector :: encodeOperands i

/-! ### Words numbered as the opcode table numbers them -/

/-- A frame of the table whose head is given and whose every further byte is 0, as the trace presents it: a
head of 8 bytes is a whole RQ4 frame where it reads as one and else a whole RSW frame, 7 bytes the head of
WRREG.REQ, 3 bytes that of a read response, and any other head a response frame without a payload. -/
def tableFrame (head : Bytes) : Bytes :=
  let request (f : Bytes) : Bytes := requestTag :: encBytes 0 f
  let response (f : Bytes) : Bytes := responseTag :: encBytes 0 f
  let dataLength : Nat := (head.getLast?.getD 0).toNat
  if head.length = 8 then
    match decodeRequest head with
    | .ok _ => request head
    | .error _ => response head
  else if head.length = 7 then request (head ++ List.replicate (dataLength + 2) 0)
  else if head.length = 3 then response (head ++ List.replicate (dataLength + 2) 0)
  else response (head ++ [0, 0])

/-- The trace bytes of a table word. A row of one byte is a host operation's selector, followed by operand
bytes of 0 (log entry 9 says why the eight wire rows, whose selector byte is the same word, cannot be told
from it); a row of more bytes is a wire frame in transmission order. -/
def tableBytes (nbits w : Nat) : Bytes :=
  let n := (nbits + 7) / 8
  if n ≤ 1 then leBytes 1 w ++ List.replicate 16 0 else tableFrame (leBytes n w)

/-- The instruction the decoder reads from a table word. -/
def decodeTableWord (nbits w : Nat) : Option Instr :=
  match decode (tableBytes nbits w) with
  | .ok (i, _) => some i
  | .error _ => none

end Sys2Proof
end

