-- ==== Sys2Proof/Machine/State.lean ====
section
/-! DEFINITION. The state of the block as plain data: the six elements of 10_state.md R20 and the model's own
fields beside them; the events, actions and synchronous results it puts out; the reasons a step stops; and
the state after reset. -/

namespace Sys2Proof.Machine

/-- `Running` after a RESET with a valid slave id, `Refused` after one with an invalid id (R21). -/
inductive Mode where
  | running
  | refused
deriving DecidableEq, Repr

/-- The object type of a request (R28). -/
inductive ObjectKind where
  | coil
  | register
deriving DecidableEq, Repr

/-- The direction of a request (R28). -/
inductive Direction where
  | read
  | write
deriving DecidableEq, Repr

/-- A PendingRequest (R28): six fields fixed when the request is enqueued. -/
structure PendingRequest where
  address : U16
  objectKind : ObjectKind
  operation : Direction
  outgoingFrame : Bytes
  expectedResponseLength : Nat
  enqueuedAt : Nat
deriving DecidableEq, Repr

/-- The closed list of error kinds (R241). -/
inductive ErrorKind where
  | checksumError
  | timeout
  | invalidAddress
  | invalidIdentifier
  | transportError
  | queueFull
deriving DecidableEq, Repr

/-- The `detail` of an Error event (R241). -/
inductive Detail where
  | none
  | address (a : U16)
  | cause (c : Bytes)
deriving DecidableEq, Repr

/-- The value of a CoilRead event: one boolean or a sequence (R150, R249). -/
inductive CoilValue where
  | single (b : Bool)
  | sequence (bs : List Bool)
deriving DecidableEq, Repr

/-- The events of the block, complete (R249). -/
inductive Event where
  | ready
  | coilRead (address : U16) (value : CoilValue)
  | registerRead (address : U16) (bytes : Bytes)
  | coilWritten (address : U16)
  | registerWritten (address : U16)
  | error (kind : ErrorKind) (detail : Detail)
deriving DecidableEq, Repr

/-- The actions toward the transport (R50). -/
inductive Action where
  | opened
  | write (frame : Bytes)
deriving DecidableEq, Repr

/-- The three outcomes of DECODE (R141). -/
inductive DecodeResult where
  | checksumError
  | notForUs
  | ok (sid fc : Byte) (payload : Bytes)
deriving DecidableEq, Repr

/-- What an operation hands back to its caller: `ok` from an accepted ENQ (R180), a raised error (R240 (a)),
or the value of a pure function. -/
inductive Result where
  | ok
  | raised (kind : ErrorKind)
  | word (v : U16)
  | bytes (b : Bytes)
  | bool (b : Bool)
  | decoded (r : DecodeResult)
  | words (highWord lowWord : U16)
  | pattern (x : U32)
deriving DecidableEq, Repr

/-- One output of an operation. -/
inductive Output where
  | action (a : Action)
  | event (e : Event)
  | result (r : Result)
deriving DecidableEq, Repr

/-- One entry of the output history: the output, and the clock at which it was made (log entry 6). -/
structure Entry where
  time : Nat
  output : Output
deriving DecidableEq, Repr

/-- The state. The first six fields are the whole architectural state of the block (R20); the last five are
the model's own (INVENTORY.md, State). -/
structure State where
  /-- R21. -/
  mode : Mode
  /-- R22. -/
  slaveId : Byte
  /-- R23, head first. -/
  queue : List PendingRequest
  /-- R24. -/
  inFlight : Option PendingRequest
  /-- R25. -/
  lastSendTime : Option Nat
  /-- R26. -/
  receiveBuffer : Bytes
  /-- The parameters (R7), written by no operation (log entry 2). -/
  cfg : Config
  /-- The `now` operand of the latest operation that carried one (R12; log entry 5). -/
  clock : Nat
  /-- The outputs so far, oldest first; no rule reads them (R36; log entry 6). -/
  history : List Entry
  /-- The bytes of the operations presented and not yet taken, next first (log entry 7). -/
  trace : Bytes
  /-- The argument of the next free value (log entry 3). -/
  freeCount : Nat
deriving DecidableEq, Repr

/-- Why the machine stops with a fault. -/
inductive Fault where
  /-- Raised by `step` alone, when the bytes presented encode no operation. SAFE: the spec gives such bytes
  no meaning, and a run ends at them (log entry 8). -/
  | badEncoding (e : DecodeError)
deriving DecidableEq, Repr

/-- Why an operation is given no meaning. What the spec calls `refuse` (R10) is one of these; every one of
them is SAFE: nothing about a run that goes on can be proved. -/
inductive Refusal where
  /-- Raised by an arm of `exec` whose instruction has no meaning yet. SAFE. -/
  | notModelled (mnemonic : String)
  /-- Raised by every operation but RESET while mode is Refused (R21, R186, R223 (g), R255, R262, R281,
  93_implementation_defined.md U2, U10; log entry 12). SAFE. -/
  | notRunning
  /-- Raised by ENQ.* and TICK on a `now` below an earlier one (R12, U11). SAFE. -/
  | clockWentBack
  /-- Raised by ENQ.WRREG and WRREG.REQ on more than 127 words (R148, R185, U4). SAFE. -/
  | tooManyWords
  /-- Raised by CRC.CHECK on fewer than 2 bytes (R123, U5). SAFE. -/
  | checkTooShort
  /-- Raised by DECODE, and by a resolution inside RX, on fewer than 4 bytes (R144, U5). SAFE. -/
  | frameTooShort
  /-- Raised by W2F on other than 4 bytes (R171, U5). SAFE. -/
  | notFourBytes
  /-- Raised by RX when a ReadCoil response declares one byte and holds none (R150, U6). SAFE. -/
  | coilByteMissing
  /-- Raised by RX when a read response has an empty payload, outside the domain of READ.COILS and READ.REGS
  (R150, R151); no reachable state gives it. SAFE. -/
  | payloadMissing
  /-- Raised by RX on a chunk that would pass a finite RXCAP (R211, U8). SAFE. -/
  | receiveBufferFull
  /-- Raised by a wire-request row whose frame is not the one this engine builds: a foreign slave id, a wrong
  checksum, or another 16-bit field than WRREG_FIELD16 gives (R22, R80, R93; log entry 10). SAFE. -/
  | foreignRequestFrame
deriving DecidableEq, Repr

/-- The state right after RESET with the slave id of the tests (R35, R280; log entries 1 to 7): the six
elements at the values of R35, the parameters at their defaults, and open() as the one output so far. -/
def State.reset : State :=
  { mode := .running
    slaveId := defaultSlaveId
    queue := []
    inFlight := none
    lastSendTime := none
    receiveBuffer := []
    cfg := Config.default
    clock := 0
    history := [{ time := 0, output := .action .opened }]
    trace := []
    freeCount := 0 }

end Sys2Proof.Machine
end

