-- ==== Sys2Proof/Machine/Ops.lean ====
section
/-! DEFINITION. The named operations every meaning is built from: recording an output, emitting an event,
performing an action, raising a synchronous error, the two gates of an operation, and the reading and
writing of queue and receiveBuffer.

The block has no trap mechanism and no return-from-error operation (R240, R254). Its errors are taken here:
a synchronous error is `raise`, an asynchronous one is `emit (.error …)`; each leaves the state R253 gives,
and the next operation runs by its ordinary rule. -/

namespace Sys2Proof.Machine

open Host

/-- Append an output to the history. -/
def record (o : Output) (s : State) : State :=
  { s with history := s.history ++ [{ time := s.clock, output := o }] }

/-- `emit E` (R10). -/
def emit (e : Event) (s : State) : State := record (.event e) s

/-- Perform an action toward the transport (R50, R51). -/
def act (a : Action) (s : State) : State := record (.action a) s

/-- Hand a synchronous result to the caller. -/
def answer (r : Result) (s : State) : State := record (.result r) s

/-- `raise K`: the operation ends and the caller receives `K`; no state element changes (R10, R240 (a)). -/
def raise (k : ErrorKind) (s : State) : State := answer (.raised k) s

/-- The ordinal of an error kind (R241, D27); it appears on no wire. -/
def ErrorKind.ordinal : ErrorKind → Nat
  | .checksumError => 1
  | .timeout => 2
  | .invalidAddress => 3
  | .invalidIdentifier => 4
  | .transportError => 5
  | .queueFull => 6

/-- `require mode = Running`: every operation but RESET is refused while mode is Refused (R21, R255, R281). -/
def requireRunning (s : State) (k : State → Outcome State Fault Refusal) : Outcome State Fault Refusal :=
  match s.mode with
  | .running => k s
  | .refused => .refused .notRunning

/-- Whether an operation may carry `now`: it is not below an earlier one, whatever W_T is, since `now` is the
count of milliseconds itself and only the times the block holds are reduced (R12, D3; log entry 5). -/
def timeAccepted (now : Nat) (s : State) : Bool := s.clock ≤ now

/-- Take the operand `now`; a decreasing one is refused (93_implementation_defined.md U11). -/
def atTime (now : Nat) (s : State) (k : State → Outcome State Fault Refusal) : Outcome State Fault Refusal :=
  if timeAccepted now s then k { s with clock := now } else .refused .clockWentBack

/-- A time value as the block holds it: modulo `2^W_T` when W_T is finite (R12). -/
def wrapTime (c : Config) (t : Nat) : Nat :=
  match c.timeBits with
  | none => t
  | some w => t % 2 ^ w

/-- `elapsed(t)` at `now` for a stored time `t` (R12). -/
def elapsed (c : Config) (now t : Nat) : Nat :=
  match c.timeBits with
  | none => now - t
  | some w => (now % 2 ^ w + (2 ^ w - t % 2 ^ w)) % 2 ^ w

/-- QDEPTH is finite and reached (R181); the in-flight request is not counted. -/
def queueFull (s : State) : Bool :=
  match s.cfg.queueDepth with
  | none => false
  | some n => n ≤ s.queue.length

/-- ENQUEUE (R181): append at the tail and answer ok, or raise QueueFull. -/
def enqueue (d : PendingRequest) (s : State) : State :=
  if queueFull s then raise .queueFull s else answer .ok { s with queue := s.queue ++ [d] }

/-- `receiveBuffer <- []` (R222). -/
def clearBuffer (s : State) : State := { s with receiveBuffer := [] }

/-- The six elements as RESET empties them (R280), mode and slaveId aside. -/
def emptied (s : State) : State :=
  { s with queue := [], inFlight := none, lastSendTime := none, receiveBuffer := [] }

end Sys2Proof.Machine
end

