-- ==== Sys2Proof/Machine/Flags.lean ====
section
/-! DEFINITION. The block has no condition codes and no status flags (R30). In their place: the conditions an
operation computes from the state, each as the rule that reads it says. -/

namespace Sys2Proof.Machine

/-- The spacing test of the dispatch step: no frame sent since reset, or at least T_GAP elapsed (R190,
R191 (b), (d)). -/
def spacingPassed (now : Nat) (s : State) : Bool :=
  match s.lastSendTime with
  | none => true
  | some t => s.cfg.tGap ≤ elapsed s.cfg now t

/-- The test of the timeout step for a request dispatched at `t`: strictly more than T_TIMEOUT elapsed (R190,
R192 (a)). -/
def windowClosed (now t : Nat) (s : State) : Bool := tTimeout < elapsed s.cfg now t

/-- The length test of RX: receiveBuffer holds at least the expected response length (R212). -/
def responseComplete (r : PendingRequest) (s : State) : Bool :=
  r.expectedResponseLength ≤ s.receiveBuffer.length

/-- Appending `chunk` would pass a finite RXCAP (R211). -/
def overflowsBuffer (chunk : Bytes) (s : State) : Bool :=
  match s.cfg.rxCapacity with
  | none => false
  | some n => n < s.receiveBuffer.length + chunk.length

/-- The block is idle (R283). -/
def idle (s : State) : Bool := s.queue.isEmpty && s.inFlight.isNone

end Sys2Proof.Machine
end

