-- ==== Sys2Proof/Machine/Crc.lean ====
section
/-! DEFINITION. The CRC-16/MODBUS generator and validator (40_crc.md) and the meanings of CRC16, CRC.APPEND
and CRC.CHECK. -/

namespace Sys2Proof.Machine

/-- The one-bit step (R121): the bit tested is the one the shift moves out. -/
def crcBit (c : U16) : U16 := if c.getLsbD 0 then (c >>> 1) ^^^ 0xA001#16 else c >>> 1

/-- One byte: XOR into bits 7:0 and eight one-bit steps (R120). -/
def crcByte (c : U16) (b : Byte) : U16 := crcBit^[8] (c ^^^ b.setWidth 16)

/-- The running value after the bytes of `B`, from `c`. -/
def crcFrom (c : U16) (B : Bytes) : U16 := B.foldl crcByte c

/-- CRC16 (R120). -/
def crc16 (B : Bytes) : U16 := crcFrom 0xFFFF#16 B

/-- CRC.APPEND (R122). -/
def crcAppend (B : Bytes) : Bytes := B ++ le16 (crc16 B)

/-- CRC.CHECK (R123), and `none` on fewer than 2 bytes. -/
def crcCheck (F : Bytes) : Option Bool :=
  match F.drop (F.length - 2) with
  | [l, h] => some (crc16 (F.take (F.length - 2)) == joinBytes h l)
  | _ => none

/-- The byte table `T` of R126. -/
def crcTable (i : Byte) : U16 := crcBit^[8] (i.setWidth 16)

end Sys2Proof.Machine
end

