-- ==== Sys2Proof/Machine/Functions.lean ====
section
/-! DEFINITION. The frame codec (41_frame_codec.md), the Float Codec (42_float_codec.md), and the meanings of
the pure functions. A pure function writes no state element: its value is the synchronous result handed to
the caller. It is an operation (R15, R98, R99), so it is refused while mode is Refused (R21; log entry 12). -/

namespace Sys2Proof.Machine

open Host

/-- ENCODE (R140). -/
def frameEncode (sid fc : Byte) (parts : List Bytes) : Bytes := crcAppend (sid :: fc :: parts.flatten)

/-- DECODE (R141 to R143) with the state's slaveId, and `none` on fewer than 4 bytes (R144). -/
def frameDecode (slaveId : Byte) (B : Bytes) : Option DecodeResult :=
  match B with
  | sid :: fc :: rest =>
    if B.length < 4 then none
    else match crcCheck B with
      | none => none
      | some false => some .checksumError
      | some true =>
        if sid = slaveId then some (.ok sid fc (rest.take (rest.length - 2))) else some .notForUs
  | _ => none

/-- F2W (R170): the high word and the low word. -/
def f2w (x : U32) : U16 × U16 := (x.extractLsb' 16 16, x.extractLsb' 0 16)

/-- W2F (R171), and `none` on other than 4 bytes. -/
def w2f : Bytes → Option U32
  | [b0, b1, b2, b3] => some (joinBytes4 b0 b1 b2 b3)
  | _ => none

/-- CRC16 (R120). -/
def execCrc16 (b : Bytes) (s : State) : Outcome State Fault Refusal :=
  requireRunning s fun s => .next (answer (.word (crc16 b)) s)

/-- CRC.APPEND (R122). -/
def execCrcAppend (b : Bytes) (s : State) : Outcome State Fault Refusal :=
  requireRunning s fun s => .next (answer (.bytes (crcAppend b)) s)

/-- CRC.CHECK (R123). -/
def execCrcCheck (f : Bytes) (s : State) : Outcome State Fault Refusal :=
  requireRunning s fun s =>
    match crcCheck f with
    | some v => .next (answer (.bool v) s)
    | none => .refused .checkTooShort

/-- ENCODE (R140). -/
def execFrameEncode (sid fc : Byte) (parts : List Bytes) (s : State) : Outcome State Fault Refusal :=
  requireRunning s fun s => .next (answer (.bytes (frameEncode sid fc parts)) s)

/-- DECODE (R141). -/
def execFrameDecode (b : Bytes) (s : State) : Outcome State Fault Refusal :=
  requireRunning s fun s =>
    match frameDecode s.slaveId b with
    | some r => .next (answer (.decoded r) s)
    | none => .refused .frameTooShort

/-- F2W (R170). -/
def execF2w (x : U32) (s : State) : Outcome State Fault Refusal :=
  requireRunning s fun s => .next (answer (.words (f2w x).1 (f2w x).2) s)

/-- W2F (R171). -/
def execW2f (b : Bytes) (s : State) : Outcome State Fault Refusal :=
  requireRunning s fun s =>
    match w2f b with
    | some x => .next (answer (.pattern x) s)
    | none => .refused .notFourBytes

end Sys2Proof.Machine
end

