-- ==== Sys2Proof/Machine/Operands.lean ====
section
/-! DEFINITION. The operand forms: the address normaliser ADDR (R145), the request payload builders (R146 to
R148), the response payload readers (R150, R151), and the range of RESET's slave id (R280). -/

namespace Sys2Proof.Machine

/-- ADDR (R145); `none` is InvalidAddress. -/
def addr : AddrOperand → Option U16
  | .int v => if 0 ≤ v ∧ v ≤ 0xFFFF then some (BitVec.ofInt 16 v) else none
  | .pair h l =>
    if 0 ≤ h ∧ h ≤ 0xFF ∧ 0 ≤ l ∧ l ≤ 0xFF then some (BitVec.ofInt 16 (h * 256 + l)) else none
  | .other => none

/-- PAYLOAD.RDCOIL and PAYLOAD.RDREG, the same function (R146). -/
def payloadRead (address count : U16) : Bytes := be16 address ++ be16 count

/-- PAYLOAD.WRCOIL (R147). -/
def payloadWrcoil (address : U16) (value : Bool) : Bytes := be16 address ++ coilBytes value

/-- WRREG_FIELD16 for `k` registers (R148). -/
def field16 : Field16 → Nat → U16
  | .registerCount, k => BitVec.ofNat 16 k
  | .byteCount, k => BitVec.ofNat 16 (2 * k)
  | .table values, k => values[k]?.getD 0

/-- PAYLOAD.WRREG (R148), its 16-bit field as the parameter has it; the callers refuse more than 127 words. -/
def payloadWrreg (f : Field16) (address : U16) (words : List U16) : Bytes :=
  be16 address ++ be16 (field16 f words.length) ++ BitVec.ofNat 8 (2 * words.length) :: be16s words

/-- READ.COILS (R150): a byte is true only when it equals 1; `none` is its `refuse`, and a payload outside
its domain. -/
def readCoils : Bytes → Option CoilValue
  | [] => none
  | n :: data =>
    if n = 0x01#8 then
      match data with
      | [] => none
      | b :: _ => some (.single (b == 0x01#8))
    else some (.sequence ((data.take n.toNat).map (· == 0x01#8)))

/-- READ.REGS (R151); `none` on a payload outside its domain. -/
def readRegs : Bytes → Option Bytes
  | [] => none
  | n :: data => some (data.take n.toNat)

/-- `1 <= s <= 255` (R22, R280). -/
def validSlaveId (s : Int) : Bool := 1 ≤ s && s ≤ 255

end Sys2Proof.Machine
end

