-- ==== Sys2Proof/Machine/Correlator.lean ====
section
/-! DEFINITION. The response correlator (44_correlator.md): RX and its resolution step. -/

namespace Sys2Proof.Machine

open Host

/-- What a checksum-valid frame for this slave gives: the event its function code selects, keyed by the
request's address (R214, R217 to R220), no event for any other code (R221), or a refusal where the payload
has no reading (R150, R151). -/
def responseEvent (address : U16) (fc : Byte) (payload : Bytes) : Except Refusal (Option Event) :=
  if fc = 0x01#8 then
    match readCoils payload with
    | some v => .ok (some (.coilRead address v))
    | none => .error (if payload = [] then .payloadMissing else .coilByteMissing)
  else if fc = 0x03#8 then
    match readRegs payload with
    | some b => .ok (some (.registerRead address b))
    | none => .error .payloadMissing
  else if fc = 0x05#8 then .ok (some (.coilWritten address))
  else if fc = 0x10#8 then .ok (some (.registerWritten address))
  else .ok none

/-- The resolution step (R212) for the request `r`: clear inFlight, DECODE the whole buffer (R213), emit at
most one event, clear the buffer (R222); a foreign frame clears it as CLEAR_RX_ON_FOREIGN says (R216). -/
def resolve (r : PendingRequest) (s : State) : Outcome State Fault Refusal :=
  let s := { s with inFlight := none }
  match frameDecode s.slaveId s.receiveBuffer with
  | none => .refused .frameTooShort
  | some .checksumError => .next (clearBuffer (emit (.error .checksumError .none) s))
  | some .notForUs => .next (if s.cfg.clearRxOnForeign then clearBuffer s else s)
  | some (.ok _ fc payload) =>
    match responseEvent r.address fc payload with
    | .error e => .refused e
    | .ok none => .next (clearBuffer s)
    | .ok (some e) => .next (clearBuffer (emit e s))

/-- RX of `chunk` (R210, R211): append, and resolve when a request is in flight and its expected length is
reached. -/
def receive (chunk : Bytes) (s : State) : Outcome State Fault Refusal :=
  requireRunning s fun s =>
    if overflowsBuffer chunk s then .refused .receiveBufferFull
    else
      let s := { s with receiveBuffer := s.receiveBuffer ++ chunk }
      match s.inFlight with
      | none => .next s
      | some r => if responseComplete r s then resolve r s else .next s

/-- RX (R210). -/
def execRx (chunk : Bytes) (s : State) : Outcome State Fault Refusal := receive chunk s

end Sys2Proof.Machine
end

