-- ==== Sys2Proof/Machine/Queue.lean ====
section
/-! DEFINITION. The request queue and the single-in-flight dispatcher (43_queue_dispatcher.md): the
descriptors of the four requests, the meanings of ENQ.* and of TICK. -/

namespace Sys2Proof.Machine

open Host

/-- The descriptor of ENQ.RDCOIL (R182): 6 response bytes whatever the count. -/
def requestRdcoil (s : State) (address count : U16) (now : Nat) : PendingRequest :=
  { address := address, objectKind := .coil, operation := .read,
    outgoingFrame := frameEncode s.slaveId 0x01 [payloadRead address count],
    expectedResponseLength := 6, enqueuedAt := wrapTime s.cfg now }

/-- The descriptor of ENQ.RDREG (R183): the expected length is a natural number, not reduced (R13). -/
def requestRdreg (s : State) (address n : U16) (now : Nat) : PendingRequest :=
  { address := address, objectKind := .register, operation := .read,
    outgoingFrame := frameEncode s.slaveId 0x03 [payloadRead address n],
    expectedResponseLength := 3 + 2 * n.toNat + 2, enqueuedAt := wrapTime s.cfg now }

/-- The descriptor of ENQ.WRCOIL (R184). -/
def requestWrcoil (s : State) (address : U16) (value : Bool) (now : Nat) : PendingRequest :=
  { address := address, objectKind := .coil, operation := .write,
    outgoingFrame := frameEncode s.slaveId 0x05 [payloadWrcoil address value],
    expectedResponseLength := 8, enqueuedAt := wrapTime s.cfg now }

/-- The descriptor of ENQ.WRREG (R185). -/
def requestWrreg (s : State) (address : U16) (words : List U16) (now : Nat) : PendingRequest :=
  { address := address, objectKind := .register, operation := .write,
    outgoingFrame := frameEncode s.slaveId 0x10 [payloadWrreg s.cfg.wrregField16 address words],
    expectedResponseLength := 8, enqueuedAt := wrapTime s.cfg now }

/-- What the four enqueue operations share (R180, R252): the mode test, the time operand, ADDR, and ENQUEUE of
the descriptor `request` builds for the address. -/
def enqueueRequest (a : AddrOperand) (now : Nat) (request : State → U16 → PendingRequest) (s : State) :
    Outcome State Fault Refusal :=
  requireRunning s fun s => atTime now s fun s =>
    match addr a with
    | none => .next (raise .invalidAddress s)
    | some address => .next (enqueue (request s address) s)

/-- ENQ.RDCOIL (R182). -/
def execEnqRdcoil (a : AddrOperand) (count : U16) (now : Nat) (s : State) : Outcome State Fault Refusal :=
  enqueueRequest a now (fun s address => requestRdcoil s address count now) s

/-- ENQ.RDREG (R183). -/
def execEnqRdreg (a : AddrOperand) (n : U16) (now : Nat) (s : State) : Outcome State Fault Refusal :=
  enqueueRequest a now (fun s address => requestRdreg s address n now) s

/-- ENQ.WRCOIL (R184). -/
def execEnqWrcoil (a : AddrOperand) (value : Bool) (now : Nat) (s : State) : Outcome State Fault Refusal :=
  enqueueRequest a now (fun s address => requestWrcoil s address value now) s

/-- ENQ.WRREG (R185): more than 127 words are refused before the address is looked at (R252). -/
def execEnqWrreg (a : AddrOperand) (words : List U16) (now : Nat) (s : State) : Outcome State Fault Refusal :=
  requireRunning s fun s =>
    if 127 < words.length then .refused .tooManyWords
    else enqueueRequest a now (fun s address => requestWrreg s address words now) s

/-- Step 1 of TICK (R190): when nothing is in flight and the spacing has passed, the head of the queue goes
into flight and its frame is written. -/
def dispatchStep (now : Nat) (s : State) : State :=
  match s.inFlight, s.queue with
  | none, r :: rest =>
    if spacingPassed now s then
      act (.write r.outgoingFrame)
        { s with queue := rest, inFlight := some r, lastSendTime := some (wrapTime s.cfg now) }
    else s
  | _, _ => s

/-- Step 2 of TICK (R190): a request in flight whose window has closed ends with Error(Timeout, address). -/
def timeoutStep (now : Nat) (s : State) : State :=
  match s.inFlight, s.lastSendTime with
  | some r, some t =>
    if windowClosed now t s then emit (.error .timeout (.address r.address)) { s with inFlight := none } else s
  | _, _ => s

/-- TICK (R190): the dispatch step, then the timeout step on the state it left. -/
def execTick (now : Nat) (s : State) : Outcome State Fault Refusal :=
  requireRunning s fun s => atTime now s fun s => .next (timeoutStep now (dispatchStep now s))

end Sys2Proof.Machine
end

