-- ==== Sys2Proof/Machine/Transport.lean ====
section
/-! DEFINITION. RESET (70_reset_and_hazards.md R280) and the transport's notifications TR.OPENED, TR.CLOSED
and TR.ERROR (60_exceptions.md R262). -/

namespace Sys2Proof.Machine

open Host

/-- TR.OPENED (R262): emit Ready. -/
def execTrOpened (s : State) : Outcome State Fault Refusal := requireRunning s fun s => .next (emit .ready s)

/-- TR.CLOSED (R262): no state change, no event. -/
def execTrClosed (s : State) : Outcome State Fault Refusal := requireRunning s fun s => .next s

/-- TR.ERROR (R244, R262): emit Error(TransportError, cause). -/
def execTrError (cause : Bytes) (s : State) : Outcome State Fault Refusal :=
  requireRunning s fun s => .next (emit (.error .transportError (.cause cause)) s)

/-- RESET (R280), in either mode. On an invalid id slaveId becomes a free value (R35; log entry 3). -/
def execReset (id : Int) (s : State) : Outcome State Fault Refusal :=
  if validSlaveId id then
    .next (act .opened { emptied s with mode := .running, slaveId := BitVec.ofInt 8 id })
  else
    .next (raise .invalidIdentifier
      { emptied s with
        mode := .refused, slaveId := Config.freeSlaveId s.freeCount, freeCount := s.freeCount + 1 })

end Sys2Proof.Machine
end

