-- ==== Sys2Proof/Machine/Wire.lean ====
section
/-! DEFINITION. The meanings of the wire rows. A request frame is the frame its enqueue operation builds
(R182 to R185), so its meaning enqueues that request (log entry 10). A response frame reaches the block
as bytes handed to RX, so its meaning is RX of the whole frame (R217 to R221; log entry 11). -/

namespace Sys2Proof.Machine

open Host

/-- Enqueue `request` when its frame is `frame`, byte for byte; a frame this engine does not build is refused
(R22, R80, R93). The time is the clock's, since a frame carries none. -/
def requestFrame (frame : Bytes) (request : State → PendingRequest) (s : State) :
    Outcome State Fault Refusal :=
  requireRunning s fun s =>
    if (request s).outgoingFrame = frame then .next (enqueue (request s) s) else .refused .foreignRequestFrame

/-- RDCOIL.REQ (R182, layout R82). -/
def execRdcoilReq (sid : Byte) (address count crc : U16) (s : State) : Outcome State Fault Refusal :=
  requestFrame (withTrailer ([sid, 0x01] ++ be16 address ++ be16 count) crc)
    (fun s => requestRdcoil s address count s.clock) s

/-- RDREG.REQ (R183, layout R82). -/
def execRdregReq (sid : Byte) (address count crc : U16) (s : State) : Outcome State Fault Refusal :=
  requestFrame (withTrailer ([sid, 0x03] ++ be16 address ++ be16 count) crc)
    (fun s => requestRdreg s address count s.clock) s

/-- WRCOIL.REQ (R184, layout R82). -/
def execWrcoilReq (sid : Byte) (address : U16) (value : Bool) (crc : U16) (s : State) :
    Outcome State Fault Refusal :=
  requestFrame (withTrailer ([sid, 0x05] ++ be16 address ++ coilBytes value) crc)
    (fun s => requestWrcoil s address value s.clock) s

/-- WRREG.REQ (R185, layout R83). -/
def execWrregReq (sid : Byte) (address field16 : U16) (words : List U16) (crc : U16) (s : State) :
    Outcome State Fault Refusal :=
  requireRunning s fun s =>
    if 127 < words.length then .refused .tooManyWords
    else requestFrame (withTrailer ([sid, 0x10] ++ be16 address ++ be16 field16 ++
        BitVec.ofNat 8 (2 * words.length) :: be16s words) crc)
      (fun s => requestWrreg s address words s.clock) s

/-- RDCOIL.RSP (R217, layout R84). -/
def execRdcoilRsp (sid count : Byte) (data : Bytes) (crc : U16) (s : State) : Outcome State Fault Refusal :=
  receive (withTrailer ([sid, 0x01, count] ++ data) crc) s

/-- RDREG.RSP (R218, layout R84). -/
def execRdregRsp (sid count : Byte) (data : Bytes) (crc : U16) (s : State) : Outcome State Fault Refusal :=
  receive (withTrailer ([sid, 0x03, count] ++ data) crc) s

/-- WRCOIL.RSP (R219, layout R85). -/
def execWrcoilRsp (sid x0 x1 x2 x3 : Byte) (crc : U16) (s : State) : Outcome State Fault Refusal :=
  receive (withTrailer [sid, 0x05, x0, x1, x2, x3] crc) s

/-- WRREG.RSP (R220, layout R85). -/
def execWrregRsp (sid x0 x1 x2 x3 : Byte) (crc : U16) (s : State) : Outcome State Fault Refusal :=
  receive (withTrailer [sid, 0x10, x0, x1, x2, x3] crc) s

/-- UNKNOWN.RSP (R221). -/
def execUnknownRsp (sid fc : Byte) (payload : Bytes) (crc : U16) (s : State) : Outcome State Fault Refusal :=
  receive (withTrailer (sid :: fc :: payload) crc) s

end Sys2Proof.Machine
end

