-- ==== Sys2Proof/Machine/Dispatch.lean ====
section
/-! DEFINITION. One arm for each constructor of Instr, each one direct call of its meaning. -/

namespace Sys2Proof.Machine

def exec (i : Instr) (s : State) : Host.Outcome State Fault Refusal :=
  match i with
  | .rdcoilReq sid address count crc => Sys2Proof.Machine.execRdcoilReq sid address count crc s
  | .rdregReq sid address count crc => Sys2Proof.Machine.execRdregReq sid address count crc s
  | .wrcoilReq sid address value crc => Sys2Proof.Machine.execWrcoilReq sid address value crc s
  | .wrregReq sid address f words crc => Sys2Proof.Machine.execWrregReq sid address f words crc s
  | .rdcoilRsp sid count data crc => Sys2Proof.Machine.execRdcoilRsp sid count data crc s
  | .rdregRsp sid count data crc => Sys2Proof.Machine.execRdregRsp sid count data crc s
  | .wrcoilRsp sid x0 x1 x2 x3 crc => Sys2Proof.Machine.execWrcoilRsp sid x0 x1 x2 x3 crc s
  | .wrregRsp sid x0 x1 x2 x3 crc => Sys2Proof.Machine.execWrregRsp sid x0 x1 x2 x3 crc s
  | .unknownRsp sid fc payload crc => Sys2Proof.Machine.execUnknownRsp sid fc payload crc s
  | .enqRdcoil a count now => Sys2Proof.Machine.execEnqRdcoil a count now s
  | .enqRdreg a n now => Sys2Proof.Machine.execEnqRdreg a n now s
  | .enqWrcoil a value now => Sys2Proof.Machine.execEnqWrcoil a value now s
  | .enqWrreg a words now => Sys2Proof.Machine.execEnqWrreg a words now s
  | .tick now => Sys2Proof.Machine.execTick now s
  | .rx chunk => Sys2Proof.Machine.execRx chunk s
  | .trOpened => Sys2Proof.Machine.execTrOpened s
  | .trClosed => Sys2Proof.Machine.execTrClosed s
  | .trError cause => Sys2Proof.Machine.execTrError cause s
  | .reset id => Sys2Proof.Machine.execReset id s
  | .crc16 b => Sys2Proof.Machine.execCrc16 b s
  | .crcAppend b => Sys2Proof.Machine.execCrcAppend b s
  | .crcCheck f => Sys2Proof.Machine.execCrcCheck f s
  | .frameEncode sid fc parts => Sys2Proof.Machine.execFrameEncode sid fc parts s
  | .frameDecode b => Sys2Proof.Machine.execFrameDecode b s
  | .f2w x => Sys2Proof.Machine.execF2w x s
  | .w2f b => Sys2Proof.Machine.execW2f b s

end Sys2Proof.Machine
end

