-- ==== Sys2Proof/Machine/Step.lean ====
section
/-! DEFINITION. One step: the next operation of the trace is taken and run, whole (R58). -/

namespace Sys2Proof.Machine

/-- With nothing presented the block holds its state (R264); else the operation at the front of the trace is
taken off it and run; bytes that encode no operation are a fault. -/
def step (s : State) : Host.Outcome State Fault Refusal :=
  match s.trace with
  | [] => .next s
  | b :: bs =>
    match decode (b :: bs) with
    | .ok (i, rest) => exec i { s with trace := rest }
    | .error e => .fault (.badEncoding e)

/-- `s` with the operation of a table word presented next (log entry 7). -/
def State.withFetchWord (s : State) (nbits w : Nat) : State := { s with trace := tableBytes nbits w }

end Sys2Proof.Machine
end

