-- ==== Sys2Proof/Safety.lean ====
section
/-! DEFINITION. The terms claims are stated in: the outputs of a run by kind, runs of several operations, what
the invariants of 10_state.md R33 and the ordering rules of 20_memory.md R59 say of a state. -/

namespace Sys2Proof

/-! ### Operations by kind -/

/-- What an operation is, as 10_state.md R20 groups the writers of each element: a pure function (R98, R100),
an operation that enqueues a request (ENQ.* and the wire-request rows), TICK, an operation that hands bytes
to the correlator (RX and the wire-response rows), a notification of the transport, RESET. -/
inductive OpKind where
  | function
  | enqueue
  | tick
  | receive
  | transport
  | reset
deriving DecidableEq, Repr

/-- The kind of an operation. -/
def Instr.kind : Instr → OpKind
  | .rdcoilReq _ _ _ _ => .enqueue
  | .rdregReq _ _ _ _ => .enqueue
  | .wrcoilReq _ _ _ _ => .enqueue
  | .wrregReq _ _ _ _ _ => .enqueue
  | .rdcoilRsp _ _ _ _ => .receive
  | .rdregRsp _ _ _ _ => .receive
  | .wrcoilRsp _ _ _ _ _ _ => .receive
  | .wrregRsp _ _ _ _ _ _ => .receive
  | .unknownRsp _ _ _ _ => .receive
  | .enqRdcoil _ _ _ => .enqueue
  | .enqRdreg _ _ _ => .enqueue
  | .enqWrcoil _ _ _ => .enqueue
  | .enqWrreg _ _ _ => .enqueue
  | .tick _ => .tick
  | .rx _ => .receive
  | .trOpened => .transport
  | .trClosed => .transport
  | .trError _ => .transport
  | .reset _ => .reset
  | .crc16 _ => .function
  | .crcAppend _ => .function
  | .crcCheck _ => .function
  | .frameEncode _ _ _ => .function
  | .frameDecode _ => .function
  | .f2w _ => .function
  | .w2f _ => .function

end Sys2Proof

namespace Sys2Proof.Machine

/-! ### Outputs by kind -/

/-- The event of an entry. -/
def Entry.event? (e : Entry) : Option Event :=
  match e.output with
  | .event ev => some ev
  | .action _ => none
  | .result _ => none

/-- The frame write of an entry, with the clock at which it was made. -/
def Entry.write? (e : Entry) : Option (Nat × Bytes) :=
  match e.output with
  | .action (.write frame) => some (e.time, frame)
  | .action .opened => none
  | .event _ => none
  | .result _ => none

/-- The events so far, oldest first. -/
def events (s : State) : List Event := s.history.filterMap Entry.event?

/-- The frame writes so far, oldest first, each with the clock at which it was made. -/
def writes (s : State) : List (Nat × Bytes) := s.history.filterMap Entry.write?

/-- The outputs of a RESET: open(), or InvalidIdentifier. -/
def Entry.ofReset (e : Entry) : Bool :=
  e.output == .action .opened || e.output == .result (.raised .invalidIdentifier)

/-- The frame writes since the latest RESET, newest first. -/
def writesSinceReset (s : State) : List (Nat × Bytes) :=
  (s.history.reverse.takeWhile fun e => !e.ofReset).filterMap Entry.write?

/-! ### Runs -/

/-- The operations of a list, one after the other, stopping at the first fault or refusal. -/
def runList : List Instr → State → Host.Outcome State Fault Refusal
  | [], s => .next s
  | i :: is, s =>
    match exec i s with
    | .next s' => runList is s'
    | .fault f => .fault f
    | .refused r => .refused r

/-- The frames of the requests that the step from `s` to `s'` appended to the queue. -/
def acceptedFrames (s s' : State) : List Bytes := (s'.queue.drop s.queue.length).map (·.outgoingFrame)

/-- The frames of the requests accepted along a run, in the order they were accepted. -/
def acceptedAlong : List Instr → State → List Bytes
  | [], _ => []
  | i :: is, s =>
    match exec i s with
    | .next s' => acceptedFrames s s' ++ acceptedAlong is s'
    | .fault _ => []
    | .refused _ => []

/-! ### Invariants -/

/-- R33 (d) for one descriptor: its frame begins with slaveId and has a valid trailing checksum, and its
expected response length is at least 5. -/
structure ValidRequest (slaveId : Byte) (d : PendingRequest) : Prop where
  sid : d.outgoingFrame.head? = some slaveId
  checksum : crcCheck d.outgoingFrame = some true
  length : 5 ≤ d.expectedResponseLength

/-- The invariant of R33 with R22, R25 and the bounds of R23 and R26: what holds in every state reachable
from RESET. -/
structure Inv (s : State) : Prop where
  /-- R22: 0 is never held while Running. -/
  slaveIdLegal : s.mode = .running → s.slaveId ≠ 0
  /-- R33 (e). -/
  refusedEmpty : s.mode = .refused →
    s.queue = [] ∧ s.inFlight = none ∧ s.lastSendTime = none ∧ s.receiveBuffer = []
  /-- R33 (d). -/
  queueValid : ∀ d ∈ s.queue, ValidRequest s.slaveId d
  /-- R33 (d). -/
  inFlightValid : ∀ r, s.inFlight = some r → ValidRequest s.slaveId r
  /-- R25: the time of the latest write since RESET, or none. -/
  lastSend : s.lastSendTime = (writesSinceReset s).head?.map fun w => wrapTime s.cfg w.1
  /-- R33 (b): the latest write is the in-flight request's frame. -/
  awaited : ∀ r, s.inFlight = some r → (writesSinceReset s).head?.map (·.2) = some r.outgoingFrame
  /-- R23: QDEPTH. -/
  queueBound : ∀ n, s.cfg.queueDepth = some n → s.queue.length ≤ n
  /-- R26: RXCAP. -/
  bufferBound : ∀ n, s.cfg.rxCapacity = some n → s.receiveBuffer.length ≤ n

/-- R59 (c) with unbounded time: every two writes since RESET are at least T_GAP apart (newest first), and
none is later than the clock. -/
structure Spaced (s : State) : Prop where
  apart : (writesSinceReset s).Pairwise fun later earlier => earlier.1 + s.cfg.tGap ≤ later.1
  past : ∀ w ∈ writesSinceReset s, w.1 ≤ s.clock

/-- One bit of a frame changed: bit `k` of byte `i` (R153). -/
def flipBit (i k : Nat) (F : Bytes) : Bytes := F.modify i (· ^^^ (1#8 <<< k))

end Sys2Proof.Machine
end

