-- ==== Sys2Proof/Certificates/Slice0/Obligations.lean ====
section
/-! DEFINITION. The statements for the provers. Each docstring names the rule of spec/ it formalises; where a
clause rests on a decision of the spec's own (D<n> of 92_eei_decisions.md) or of the model's (a log entry),
it says so. -/

open Host Sys2Proof Sys2Proof.Machine

/-! ### Encoding and step -/

/-- Decoding an encoded well-formed instruction gives it back and leaves the bytes after it, at every operand
the encoding admits. The wire frames inside are laid out by R82 to R85; the trace layout of host operands
and of the wire tags is the model's (log entries 8 and 9). -/
def Obligations.DecodeEncodeRoundTrip : Prop :=
  ∀ (i : Instr) (rest : Bytes), WellFormed i → decode (encode i ++ rest) = .ok (i, rest)

/-- Each word has one meaning: the decoder accepts nothing but encodings of well-formed instructions (log
entries 8 and 9 for the layouts that are the model's). -/
def Obligations.DecodeReadsOnlyEncodings : Prop :=
  ∀ (bs : Bytes) (i : Instr) (rest : Bytes), decode bs = .ok (i, rest) →
    WellFormed i ∧ bs = encode i ++ rest

/-- The byte layouts of the frames (R82 to R85, R87, R88, R89, R91): addresses and counts high byte first, the
checksum low byte first; words high byte first (R90, the spec's own choice D8); any code but the four of a
response is the fallback row (R94 (b), R100). -/
def Obligations.WireFrameLayouts : Prop :=
  (∀ h l : Byte, (joinBytes h l).toNat = h.toNat * 256 + l.toNat) ∧
  (∀ s ah al nh nl cl ch : Byte,
    decodeRequest [s, 0x01, ah, al, nh, nl, cl, ch] =
      .ok (.rdcoilReq s (joinBytes ah al) (joinBytes nh nl) (joinBytes ch cl)) ∧
    decodeRequest [s, 0x03, ah, al, nh, nl, cl, ch] =
      .ok (.rdregReq s (joinBytes ah al) (joinBytes nh nl) (joinBytes ch cl)) ∧
    decodeRequest [s, 0x05, ah, al, 0xFF, 0x00, cl, ch] =
      .ok (.wrcoilReq s (joinBytes ah al) true (joinBytes ch cl)) ∧
    decodeRequest [s, 0x05, ah, al, 0x00, 0x00, cl, ch] =
      .ok (.wrcoilReq s (joinBytes ah al) false (joinBytes ch cl))) ∧
  (∀ (s ah al fh fl cl ch : Byte) (words : List U16), words.length ≤ 127 →
    decodeRequest ([s, 0x10, ah, al, fh, fl, BitVec.ofNat 8 (2 * words.length)] ++
        words.flatMap (fun w => [hi8 w, lo8 w]) ++ [cl, ch]) =
      .ok (.wrregReq s (joinBytes ah al) (joinBytes fh fl) words (joinBytes ch cl))) ∧
  (∀ (s n cl ch : Byte) (data : Bytes),
    decodeResponse ([s, 0x01, n] ++ data ++ [cl, ch]) = .ok (.rdcoilRsp s n data (joinBytes ch cl)) ∧
    decodeResponse ([s, 0x03, n] ++ data ++ [cl, ch]) = .ok (.rdregRsp s n data (joinBytes ch cl))) ∧
  (∀ s x0 x1 x2 x3 cl ch : Byte,
    decodeResponse [s, 0x05, x0, x1, x2, x3, cl, ch] = .ok (.wrcoilRsp s x0 x1 x2 x3 (joinBytes ch cl)) ∧
    decodeResponse [s, 0x10, x0, x1, x2, x3, cl, ch] = .ok (.wrregRsp s x0 x1 x2 x3 (joinBytes ch cl))) ∧
  (∀ (s fc cl ch : Byte) (payload : Bytes), isNamedFunctionCode fc = false →
    decodeResponse ([s, fc] ++ payload ++ [cl, ch]) = .ok (.unknownRsp s fc payload (joinBytes ch cl)))

/-- A few frames of 95_test_vectors.md (X3, X4, V89, V120, V131) and selectors of R99 decode to what they
stand for. That a table word of one byte is a selector followed by operand bytes of 0 is the model's choice
(log entry 9), and so is the layout of the operands (log entry 8). -/
def Obligations.SampleWordsDecode : Prop :=
  decodeRequest [0x01, 0x03, 0x0B, 0x00, 0x00, 0x02, 0xC6, 0x2F] = .ok (.rdregReq 0x01 0x0B00 2 0x2FC6) ∧
  decodeRequest [0x01, 0x05, 0x05, 0x00, 0xFF, 0x00, 0x8C, 0xF6] = .ok (.wrcoilReq 0x01 0x0500 true 0xF68C) ∧
  decodeRequest [0x01, 0x10, 0x0B, 0x00, 0x00, 0x02, 0x04, 0x41, 0x20, 0x00, 0x00, 0x95, 0x69] =
    .ok (.wrregReq 0x01 0x0B00 2 [0x4120, 0x0000] 0x6995) ∧
  decodeResponse [0x01, 0x03, 0x04, 0x41, 0x20, 0x00, 0x00, 0xEF, 0xC5] =
    .ok (.rdregRsp 0x01 0x04 [0x41, 0x20, 0x00, 0x00] 0xC5EF) ∧
  decodeResponse [0x01, 0x10, 0x0B, 0x00, 0x00, 0x02, 0x43, 0xEC] =
    .ok (.wrregRsp 0x01 0x0B 0x00 0x00 0x02 0xEC43) ∧
  decodeTableWord 8 0xF0 = some (.tick 0) ∧
  decodeTableWord 8 0xF2 = some .trOpened ∧
  decodeTableWord 8 0xE6 = some (.w2f [0, 0, 0, 0])

/-- A step takes exactly the operation at the front of the trace and runs it on the state without it (R58);
with nothing presented the block holds its state (R264), and bytes that encode no operation are a fault
(log entries 7 and 8). -/
def Obligations.StepRunsDecodedInstruction : Prop :=
  (∀ (s : State) (i : Instr) (rest : Bytes), decode s.trace = .ok (i, rest) →
    step s = exec i { s with trace := rest }) ∧
  (∀ s : State, s.trace = [] → step s = .next s) ∧
  (∀ (s : State) (e : DecodeError), s.trace ≠ [] → decode s.trace = .error e → step s = .fault (.badEncoding e))

/-! ### CRC -/

/-- R120: initial value 0xFFFF; each byte is XORed in and shifted out in eight one-bit steps, each of which
XORs 0xA001 when the bit shifted out is 1 (R121: the spec's reading of its source, 90_conflicts.md C2); CRC16
of the empty sequence is 0xFFFF; the worked example with the running value after each byte. While Running
(R21) the result goes to the caller and no state element changes. -/
def Obligations.Crc16RunsTheBitSerialAlgorithm : Prop :=
  (∀ c : U16, (crcBit c).toNat = if c.toNat % 2 = 1 then (c.toNat / 2) ^^^ 0xA001 else c.toNat / 2) ∧
  crc16 [] = 0xFFFF ∧
  (∀ (B : Bytes) (b : Byte),
    crc16 (B ++ [b]) =
      crcBit (crcBit (crcBit (crcBit (crcBit (crcBit (crcBit (crcBit (crc16 B ^^^ b.setWidth 16)))))))) ) ∧
  crc16 [0x00] = 0x40BF ∧ crc16 [0x01] = 0x807E ∧ crc16 [0x01, 0x03] = 0x2140 ∧
  crc16 [0x01, 0x03, 0x0B] = 0x3761 ∧ crc16 [0x01, 0x03, 0x0B, 0x00] = 0xE8F6 ∧
  crc16 [0x01, 0x03, 0x0B, 0x00, 0x00] = 0x4668 ∧ crc16 [0x01, 0x03, 0x0B, 0x00, 0x00, 0x02] = 0x2FC6 ∧
  (∀ (B : Bytes) (s : State), s.mode = .running → exec (.crc16 B) s =
    .next { s with history := s.history ++ [{ time := s.clock, output := .result (.word (crc16 B)) }] })

/-- R122: the low byte of the checksum first, then the high byte; while Running (R21) the result goes to the
caller and nothing else changes. -/
def Obligations.CrcAppendCompletes : Prop :=
  (∀ (B : Bytes) (s : State), s.mode = .running → exec (.crcAppend B) s =
    .next { s with history := s.history ++ [{ time := s.clock, output := .result (.bytes
      (B ++ [(crc16 B).extractLsb' 0 8, (crc16 B).extractLsb' 8 8])) }] }) ∧
  crcAppend [] = [0xFF, 0xFF] ∧
  crcAppend [0x01, 0x03, 0x0B, 0x00, 0x00, 0x02] = [0x01, 0x03, 0x0B, 0x00, 0x00, 0x02, 0xC6, 0x2F]

/-- R123 on every sequence of at least two bytes: the checksum of all bytes but the last two is compared with
them, low byte first, on all 16 bits; while Running (R21). -/
def Obligations.CrcCheckCompletes : Prop :=
  ∀ (B : Bytes) (l h : Byte) (s : State), s.mode = .running → exec (.crcCheck (B ++ [l, h])) s =
    .next { s with history := s.history ++ [{ time := s.clock, output := .result (.bool
      (decide ((crc16 B).toNat = h.toNat * 256 + l.toNat))) }] }

/-- R124. -/
def Obligations.CrcRoundTrip : Prop :=
  ∀ B : Bytes, crcCheck (crcAppend B) = some true

/-- R125 both ways: a sequence of at least two bytes passes CRC.CHECK exactly when CRC16 over all of it is
0. -/
def Obligations.ZeroResidueIffValid : Prop :=
  ∀ F : Bytes, 2 ≤ F.length → (crcCheck F = some true ↔ crc16 F = 0)

/-- R126: the byte-table form of one byte step, and its spot values. -/
def Obligations.ByteTableForm : Prop :=
  (∀ (c : U16) (b : Byte), crcByte c b = (c >>> 8) ^^^ crcTable ((c ^^^ b.setWidth 16).setWidth 8)) ∧
  crcTable 0x00 = 0x0000 ∧ crcTable 0x01 = 0xC0C1 ∧ crcTable 0x02 = 0xC181 ∧ crcTable 0x03 = 0x0140 ∧
  crcTable 0x80 = 0xA001 ∧ crcTable 0xFF = 0x4040

/-- R128: zero bytes after a valid frame keep it valid, and one non-zero byte does not. -/
def Obligations.TrailingZerosKeepValid : Prop :=
  ∀ F : Bytes, crcCheck F = some true →
    (∀ n : Nat, crcCheck (F ++ List.replicate n 0x00) = some true) ∧
    (∀ b : Byte, b ≠ 0x00#8 → crcCheck (F ++ [b]) = some false)

/-! ### Frame codec and Float Codec -/

/-- R140: slave id, function code, the parts in order, the checksum low byte first; any slave id and code;
while Running (R21). -/
def Obligations.EncodeCompletes : Prop :=
  (∀ (sid fc : Byte) (parts : List Bytes) (s : State), s.mode = .running → exec (.frameEncode sid fc parts) s =
    .next { s with history := s.history ++ [{ time := s.clock, output := .result (.bytes
      ([sid, fc] ++ parts.flatten ++ [lo8 (crc16 ([sid, fc] ++ parts.flatten)),
        hi8 (crc16 ([sid, fc] ++ parts.flatten))])) }] }) ∧
  frameEncode 0x01 0x03 [[0x0B, 0x00], [0x00, 0x02]] = [0x01, 0x03, 0x0B, 0x00, 0x00, 0x02, 0xC6, 0x2F]

/-- R141, R142: on every sequence of at least four bytes the checksum is tested first, then the slave id; the
function code is not examined; the payload is what stands between code and checksum. While Running (R21), as
slaveId is read (R35). -/
def Obligations.DecodeCompletes : Prop :=
  (∀ (sid fc l h : Byte) (P : Bytes) (s : State), s.mode = .running →
    exec (.frameDecode ([sid, fc] ++ P ++ [l, h])) s =
    .next { s with history := s.history ++ [{ time := s.clock, output := .result (.decoded
      (if (crc16 ([sid, fc] ++ P)).toNat ≠ h.toNat * 256 + l.toNat then .checksumError
       else if sid ≠ s.slaveId then .notForUs
       else .ok sid fc P)) }] }) ∧
  frameDecode 0x01 [0x01, 0x03, 0x04, 0x41, 0x20, 0x00, 0x00, 0xEF, 0xC5] =
    some (.ok 0x01 0x03 [0x04, 0x41, 0x20, 0x00, 0x00])

/-- R153, first half: DECODE of an encoded frame. -/
def Obligations.FrameRoundTrip : Prop :=
  ∀ (slaveId sid fc : Byte) (parts : List Bytes),
    frameDecode slaveId (frameEncode sid fc parts) =
      some (if sid = slaveId then .ok sid fc parts.flatten else .notForUs)

/-- R153, second half: changing any single bit of an encoded frame makes DECODE return ChecksumError. -/
def Obligations.SingleBitErrorDetected : Prop :=
  ∀ (slaveId sid fc : Byte) (parts : List Bytes) (i k : Nat),
    i < (frameEncode sid fc parts).length → k < 8 →
    frameDecode slaveId (flipBit i k (frameEncode sid fc parts)) = some .checksumError

/-- R170, R171: the high word and the low word of a pattern, and the pattern of four bytes, most significant
first, for every pattern (D24); while Running (R21). -/
def Obligations.FloatCodecCompletes : Prop :=
  (∀ (x : U32) (s : State), s.mode = .running →
    ∃ h l : U16, h.toNat = x.toNat / 65536 ∧ l.toNat = x.toNat % 65536 ∧
    exec (.f2w x) s =
      .next { s with history := s.history ++ [{ time := s.clock, output := .result (.words h l) }] }) ∧
  (∀ (b0 b1 b2 b3 : Byte) (s : State), s.mode = .running → ∃ x : U32,
    x.toNat = b0.toNat * 2 ^ 24 + b1.toNat * 2 ^ 16 + b2.toNat * 2 ^ 8 + b3.toNat ∧
    exec (.w2f [b0, b1, b2, b3]) s =
      .next { s with history := s.history ++ [{ time := s.clock, output := .result (.pattern x) }] })

/-- R172: both directions are the identity on the 32 bits. -/
def Obligations.FloatRoundTrip : Prop :=
  (∀ x : U32, w2f (be16 (f2w x).1 ++ be16 (f2w x).2) = some x) ∧
  (∀ b : Bytes, b.length = 4 → ∃ x, w2f b = some x ∧ be16 (f2w x).1 ++ be16 (f2w x).2 = b)

/-- The spec refuses CRC.CHECK of fewer than two bytes, DECODE of fewer than four and W2F of other than four
(R123, R144, R171; the spec's own decisions D23 and D24), under these names while Running. -/
def Obligations.ShortInputsRefused : Prop :=
  (∀ (f : Bytes) (s : State), s.mode = .running → f.length < 2 →
    exec (.crcCheck f) s = .refused .checkTooShort) ∧
  (∀ (b : Bytes) (s : State), s.mode = .running → b.length < 4 →
    exec (.frameDecode b) s = .refused .frameTooShort) ∧
  (∀ (b : Bytes) (s : State), s.mode = .running → b.length ≠ 4 →
    exec (.w2f b) s = .refused .notFourBytes)

/-- R145: ADDR of an integer, of a pair, of any other shape (over the integers: D22). -/
def Obligations.AddressNormaliser : Prop :=
  (∀ (v : Int) (a : U16), addr (.int v) = some a ↔ 0 ≤ v ∧ v ≤ 0xFFFF ∧ (a.toNat : Int) = v) ∧
  (∀ (h l : Int) (a : U16), addr (.pair h l) = some a ↔
    0 ≤ h ∧ h ≤ 0xFF ∧ 0 ≤ l ∧ l ≤ 0xFF ∧ (a.toNat : Int) = h * 256 + l) ∧
  addr .other = none

/-! ### Enqueue -/

/-- R182: the descriptor appended, its frame and its expected length 6 whatever the count; InvalidAddress and
QueueFull leave the elements as they were. The QueueFull clause rests on the spec's own choice D16, the
Refused clause on D20 and D35 (log entry 14), and the clock in the state is the model's (log entry 5). -/
def Obligations.EnqRdcoilAppends : Prop :=
  ∀ (a : AddrOperand) (count : U16) (now : Nat) (s : State),
    (s.mode = .refused → exec (.enqRdcoil a count now) s = .refused .notRunning) ∧
    (s.mode = .running → timeAccepted now s = true →
      (∀ address, addr a = some address → queueFull s = false →
        exec (.enqRdcoil a count now) s = .next { s with
          clock := now
          queue := s.queue ++ [{
            address := address, objectKind := .coil, operation := .read
            outgoingFrame := crcAppend [s.slaveId, 0x01, hi8 address, lo8 address, hi8 count, lo8 count]
            expectedResponseLength := 6, enqueuedAt := wrapTime s.cfg now }]
          history := s.history ++ [{ time := now, output := .result .ok }] }) ∧
      (addr a = none → exec (.enqRdcoil a count now) s = .next { s with
          clock := now
          history := s.history ++ [{ time := now, output := .result (.raised .invalidAddress) }] }) ∧
      (∀ address, addr a = some address → queueFull s = true →
        exec (.enqRdcoil a count now) s = .next { s with
          clock := now
          history := s.history ++ [{ time := now, output := .result (.raised .queueFull) }] }))

/-- R183: expected length 3 + 2 n + 2, a natural number that is not reduced; the other clauses as in
EnqRdcoilAppends (D16, D20, D35: log entry 14; the clock: log entry 5). -/
def Obligations.EnqRdregAppends : Prop :=
  ∀ (a : AddrOperand) (n : U16) (now : Nat) (s : State),
    (s.mode = .refused → exec (.enqRdreg a n now) s = .refused .notRunning) ∧
    (s.mode = .running → timeAccepted now s = true →
      (∀ address, addr a = some address → queueFull s = false →
        exec (.enqRdreg a n now) s = .next { s with
          clock := now
          queue := s.queue ++ [{
            address := address, objectKind := .register, operation := .read
            outgoingFrame := crcAppend [s.slaveId, 0x03, hi8 address, lo8 address, hi8 n, lo8 n]
            expectedResponseLength := 3 + 2 * n.toNat + 2, enqueuedAt := wrapTime s.cfg now }]
          history := s.history ++ [{ time := now, output := .result .ok }] }) ∧
      (addr a = none → exec (.enqRdreg a n now) s = .next { s with
          clock := now
          history := s.history ++ [{ time := now, output := .result (.raised .invalidAddress) }] }) ∧
      (∀ address, addr a = some address → queueFull s = true →
        exec (.enqRdreg a n now) s = .next { s with
          clock := now
          history := s.history ++ [{ time := now, output := .result (.raised .queueFull) }] }))

/-- R184: value bytes FF 00 for true, 00 00 for false; expected length 8; the other clauses as
in EnqRdcoilAppends (D16, D20, D35: log entry 14; the clock: log entry 5). -/
def Obligations.EnqWrcoilAppends : Prop :=
  ∀ (a : AddrOperand) (value : Bool) (now : Nat) (s : State),
    (s.mode = .refused → exec (.enqWrcoil a value now) s = .refused .notRunning) ∧
    (s.mode = .running → timeAccepted now s = true →
      (∀ address, addr a = some address → queueFull s = false →
        exec (.enqWrcoil a value now) s = .next { s with
          clock := now
          queue := s.queue ++ [{
            address := address, objectKind := .coil, operation := .write
            outgoingFrame := crcAppend
              [s.slaveId, 0x05, hi8 address, lo8 address, if value then 0xFF else 0x00, 0x00]
            expectedResponseLength := 8, enqueuedAt := wrapTime s.cfg now }]
          history := s.history ++ [{ time := now, output := .result .ok }] }) ∧
      (addr a = none → exec (.enqWrcoil a value now) s = .next { s with
          clock := now
          history := s.history ++ [{ time := now, output := .result (.raised .invalidAddress) }] }) ∧
      (∀ address, addr a = some address → queueFull s = true →
        exec (.enqWrcoil a value now) s = .next { s with
          clock := now
          history := s.history ++ [{ time := now, output := .result (.raised .queueFull) }] }))

/-- R185 with the payload of R148: address, the 16-bit field of parameter WRREG_FIELD16 (D7: k, 2 k, or a
table), byteCount 2 k, the words high byte first (D8); expected length 8; the other clauses as in
EnqRdcoilAppends (D16, D20, D35: log entry 14; the clock: log entry 5), at most 127 words. -/
def Obligations.EnqWrregAppends : Prop :=
  ∀ (a : AddrOperand) (words : List U16) (now : Nat) (s : State),
    (s.mode = .refused → exec (.enqWrreg a words now) s = .refused .notRunning) ∧
    (s.mode = .running → timeAccepted now s = true → words.length ≤ 127 →
      (∀ address, addr a = some address → queueFull s = false →
        ∃ f : U16,
          (s.cfg.wrregField16 = .registerCount → f.toNat = words.length) ∧
          (s.cfg.wrregField16 = .byteCount → f.toNat = 2 * words.length) ∧
          (∀ values, s.cfg.wrregField16 = .table values → values[words.length]? = some f) ∧
          exec (.enqWrreg a words now) s = .next { s with
            clock := now
            queue := s.queue ++ [{
              address := address, objectKind := .register, operation := .write
              outgoingFrame := crcAppend ([s.slaveId, 0x10, hi8 address, lo8 address, hi8 f, lo8 f,
                BitVec.ofNat 8 (2 * words.length)] ++ words.flatMap fun w => [hi8 w, lo8 w])
              expectedResponseLength := 8, enqueuedAt := wrapTime s.cfg now }]
            history := s.history ++ [{ time := now, output := .result .ok }] }) ∧
      (addr a = none → exec (.enqWrreg a words now) s = .next { s with
          clock := now
          history := s.history ++ [{ time := now, output := .result (.raised .invalidAddress) }] }) ∧
      (∀ address, addr a = some address → queueFull s = true →
        exec (.enqWrreg a words now) s = .next { s with
          clock := now
          history := s.history ++ [{ time := now, output := .result (.raised .queueFull) }] }))

/-- R246: an ENQ operation with a malformed address builds no descriptor, appends nothing and returns the
error, which is no event; a full queue does not hide it (R252). -/
def Obligations.InvalidAddressIsRaised : Prop :=
  ∀ (a : AddrOperand) (x : U16) (value : Bool) (words : List U16) (now : Nat) (s : State) (i : Instr),
    (i = .enqRdcoil a x now ∨ i = .enqRdreg a x now ∨ i = .enqWrcoil a value now ∨ i = .enqWrreg a words now) →
    s.mode = .running → timeAccepted now s = true → words.length ≤ 127 → addr a = none →
    ∃ t, exec i s = .next t ∧ t.queue = s.queue ∧ t.mode = s.mode ∧ t.slaveId = s.slaveId ∧
      t.inFlight = s.inFlight ∧ t.lastSendTime = s.lastSendTime ∧ t.receiveBuffer = s.receiveBuffer ∧
      events t = events s ∧ writes t = writes s ∧
      t.history.getLast?.map (·.output) = some (.result (.raised .invalidAddress))

/-- A `now` below an earlier one is refused, whatever W_T is (R12, U11, D3), and so are more than 127 words (U4,
D8). -/
def Obligations.RefusedOperands : Prop :=
  (∀ (a : AddrOperand) (x : U16) (value : Bool) (words : List U16) (now : Nat) (s : State) (i : Instr),
    (i = .enqRdcoil a x now ∨ i = .enqRdreg a x now ∨ i = .enqWrcoil a value now ∨
      i = .enqWrreg a words now ∨ i = .tick now) →
    s.mode = .running → now < s.clock → words.length ≤ 127 →
    exec i s = .refused .clockWentBack) ∧
  (∀ (a : AddrOperand) (words : List U16) (now : Nat) (s : State),
    s.mode = .running → 127 < words.length → exec (.enqWrreg a words now) s = .refused .tooManyWords)

/-- The wire-request rows (R182 to R185, layouts R82, R83): the frame this engine builds is enqueued, at the
clock's time; on a full queue QueueFull is raised and every element stays as it was (R181, R245, D16). That a
request frame run as an operation means its enqueue operation is the model's reading (log entry 10). -/
def Obligations.RequestRowsEnqueue : Prop :=
  ∀ s : State, s.mode = .running →
    (queueFull s = false →
      (∀ address count : U16,
        exec (.rdcoilReq s.slaveId address count
            (crc16 [s.slaveId, 0x01, hi8 address, lo8 address, hi8 count, lo8 count])) s =
          .next { s with
            queue := s.queue ++ [{
              address := address, objectKind := .coil, operation := .read
              outgoingFrame := crcAppend [s.slaveId, 0x01, hi8 address, lo8 address, hi8 count, lo8 count]
              expectedResponseLength := 6, enqueuedAt := wrapTime s.cfg s.clock }]
            history := s.history ++ [{ time := s.clock, output := .result .ok }] } ∧
        exec (.rdregReq s.slaveId address count
            (crc16 [s.slaveId, 0x03, hi8 address, lo8 address, hi8 count, lo8 count])) s =
          .next { s with
            queue := s.queue ++ [{
              address := address, objectKind := .register, operation := .read
              outgoingFrame := crcAppend [s.slaveId, 0x03, hi8 address, lo8 address, hi8 count, lo8 count]
              expectedResponseLength := 3 + 2 * count.toNat + 2, enqueuedAt := wrapTime s.cfg s.clock }]
            history := s.history ++ [{ time := s.clock, output := .result .ok }] }) ∧
      (∀ (address : U16) (value : Bool),
        exec (.wrcoilReq s.slaveId address value
            (crc16 [s.slaveId, 0x05, hi8 address, lo8 address, if value then 0xFF else 0x00, 0x00])) s =
          .next { s with
            queue := s.queue ++ [{
              address := address, objectKind := .coil, operation := .write
              outgoingFrame := crcAppend
                [s.slaveId, 0x05, hi8 address, lo8 address, if value then 0xFF else 0x00, 0x00]
              expectedResponseLength := 8, enqueuedAt := wrapTime s.cfg s.clock }]
            history := s.history ++ [{ time := s.clock, output := .result .ok }] }) ∧
      (∀ (address f : U16) (words : List U16), words.length ≤ 127 →
        f = field16 s.cfg.wrregField16 words.length →
        exec (.wrregReq s.slaveId address f words
            (crc16 ([s.slaveId, 0x10, hi8 address, lo8 address, hi8 f, lo8 f,
              BitVec.ofNat 8 (2 * words.length)] ++ words.flatMap fun w => [hi8 w, lo8 w]))) s =
          .next { s with
            queue := s.queue ++ [{
              address := address, objectKind := .register, operation := .write
              outgoingFrame := crcAppend ([s.slaveId, 0x10, hi8 address, lo8 address, hi8 f, lo8 f,
                BitVec.ofNat 8 (2 * words.length)] ++ words.flatMap fun w => [hi8 w, lo8 w])
              expectedResponseLength := 8, enqueuedAt := wrapTime s.cfg s.clock }]
            history := s.history ++ [{ time := s.clock, output := .result .ok }] })) ∧
    (queueFull s = true → ∀ i : Instr,
      ((∃ address count : U16, i = .rdcoilReq s.slaveId address count
          (crc16 [s.slaveId, 0x01, hi8 address, lo8 address, hi8 count, lo8 count])) ∨
        (∃ address count : U16, i = .rdregReq s.slaveId address count
          (crc16 [s.slaveId, 0x03, hi8 address, lo8 address, hi8 count, lo8 count])) ∨
        (∃ (address : U16) (value : Bool), i = .wrcoilReq s.slaveId address value
          (crc16 [s.slaveId, 0x05, hi8 address, lo8 address, if value then 0xFF else 0x00, 0x00])) ∨
        (∃ (address f : U16) (words : List U16), words.length ≤ 127 ∧
          f = field16 s.cfg.wrregField16 words.length ∧
          i = .wrregReq s.slaveId address f words
            (crc16 ([s.slaveId, 0x10, hi8 address, lo8 address, hi8 f, lo8 f,
              BitVec.ofNat 8 (2 * words.length)] ++ words.flatMap fun w => [hi8 w, lo8 w])))) →
      exec i s = .next { s with
        history := s.history ++ [{ time := s.clock, output := .result (.raised .queueFull) }] })

/-- The engine builds no frame for another slave, no frame with a wrong checksum, and no WriteRegister frame with
another 16-bit field than WRREG_FIELD16 gives (R22, R80, R93, R148): such a request row is refused, whatever
else its fields hold (log entry 10). -/
def Obligations.ForeignRequestRowsRefused : Prop :=
  (∀ (i : Instr) (frame : Bytes) (s : State), i.kind = .enqueue → WellFormed i →
    frameBytes i = some frame → s.mode = .running →
    (frame.head? ≠ some s.slaveId ∨ crcCheck frame = some false) →
    exec i s = .refused .foreignRequestFrame) ∧
  (∀ (sid : Byte) (address f : U16) (words : List U16) (crc : U16) (s : State), s.mode = .running →
    words.length ≤ 127 →
    (s.cfg.wrregField16 = .registerCount ∧ f.toNat ≠ words.length ∨
      s.cfg.wrregField16 = .byteCount ∧ f.toNat ≠ 2 * words.length ∨
      ∃ values, s.cfg.wrregField16 = .table values ∧ values[words.length]? ≠ some f) →
    exec (.wrregReq sid address f words crc) s = .refused .foreignRequestFrame)

/-! ### TICK -/

/-- R190, step 1: with nothing in flight, a request queued, and no frame sent since reset or at least T_GAP
elapsed, the head is dispatched, its frame written, and nothing else happens in this TICK (order of the two
steps: D5; first dispatch: D4). -/
def Obligations.TickDispatches : Prop :=
  ∀ (now : Nat) (s : State) (r : PendingRequest) (rest : List PendingRequest),
    s.mode = .running → timeAccepted now s = true → s.inFlight = none → s.queue = r :: rest →
    (s.lastSendTime = none ∨ ∃ t, s.lastSendTime = some t ∧ s.cfg.tGap ≤ elapsed s.cfg now t) →
    exec (.tick now) s = .next { s with
      clock := now
      queue := rest
      inFlight := some r
      lastSendTime := some (wrapTime s.cfg now)
      history := s.history ++ [{ time := now, output := .action (.write r.outgoingFrame) }] }

/-- R243: a request in flight for more than T_TIMEOUT ends with Error(Timeout, address); receiveBuffer, queue
and lastSendTime are unchanged. That nothing is dispatched in the same TICK is R192 (d), which rests on the
order of the two steps, the spec's own choice D5 (log entry 14). -/
def Obligations.TickTimesOut : Prop :=
  ∀ (now : Nat) (s : State) (r : PendingRequest) (t : Nat),
    s.mode = .running → timeAccepted now s = true → s.inFlight = some r → s.lastSendTime = some t →
    5000 < elapsed s.cfg now t →
    exec (.tick now) s = .next { s with
      clock := now
      inFlight := none
      history := s.history ++ [{ time := now, output := .event (.error .timeout (.address r.address)) }] }

/-- R190 to R192: in every other case TICK changes no state element and puts nothing out: an empty queue, a
spacing below T_GAP, a request in flight for at most T_TIMEOUT. -/
def Obligations.TickOtherwiseIdle : Prop :=
  ∀ (now : Nat) (s : State), s.mode = .running → timeAccepted now s = true →
    (s.inFlight = none ∧ (s.queue = [] ∨ ∃ t, s.lastSendTime = some t ∧ elapsed s.cfg now t < s.cfg.tGap) ∨
      ∃ r, s.inFlight = some r ∧
        (s.lastSendTime = none ∨ ∃ t, s.lastSendTime = some t ∧ elapsed s.cfg now t ≤ 5000)) →
    exec (.tick now) s = .next { s with clock := now }

/-- R12, R303: elapsed time is now - t with unbounded time, and now - t modulo 2^W_T with a finite W_T; a stored
time gives back the true distance when less than 2^W_T has passed. -/
def Obligations.ElapsedTime : Prop :=
  ∀ (c : Config) (now t : Nat),
    (c.timeBits = none → wrapTime c t = t ∧ elapsed c now t = now - t) ∧
    (∀ w, c.timeBits = some w →
      wrapTime c t < 2 ^ w ∧ elapsed c now t < 2 ^ w ∧ (elapsed c now t + t) % 2 ^ w = now % 2 ^ w ∧
      (t ≤ now → now < t + 2 ^ w → elapsed c now (wrapTime c t) = now - t))

/-- R192 (d), (g), R311 (d): a request that is not answered ends with exactly one Timeout and no write in that
TICK, a further TICK emits no second one, and the first TICK after it at which the spacing has passed
dispatches the next request (D5). -/
def Obligations.TimeoutThenNextDispatch : Prop :=
  ∀ (s : State) (r q : PendingRequest) (rest : List PendingRequest) (t n1 n2 : Nat),
    s.mode = .running → s.cfg.timeBits = none → s.clock ≤ n1 → n1 ≤ n2 →
    s.inFlight = some r → s.lastSendTime = some t → s.queue = q :: rest →
    t + 5000 < n1 → t + s.cfg.tGap ≤ n2 →
    ∃ s1 s2, exec (.tick n1) s = .next s1 ∧ exec (.tick n2) s1 = .next s2 ∧
      events s1 = events s ++ [.error .timeout (.address r.address)] ∧ writes s1 = writes s ∧
      s1.inFlight = none ∧ s1.queue = q :: rest ∧
      events s2 = events s1 ∧ writes s2 = writes s1 ++ [(n2, q.outgoingFrame)] ∧
      s2.inFlight = some q ∧ s2.queue = rest

/-! ### RX -/

/-- R211: the bytes are appended first; with nothing in flight (D10), or below the expected length, nothing
else happens. -/
def Obligations.RxAppendsAndWaits : Prop :=
  ∀ (chunk : Bytes) (s : State), s.mode = .running → overflowsBuffer chunk s = false →
    (s.inFlight = none ∨ ∃ r, s.inFlight = some r ∧
      (s.receiveBuffer ++ chunk).length < r.expectedResponseLength) →
    exec (.rx chunk) s = .next { s with receiveBuffer := s.receiveBuffer ++ chunk }

/-- R212, R215, R242: a resolution whose buffer fails its checksum clears inFlight, emits a ChecksumError event
and empties the buffer, whatever slave the frame is for. The detail of the event is left open (U20). -/
def Obligations.RxChecksumError : Prop :=
  ∀ (chunk : Bytes) (s : State) (r : PendingRequest), s.mode = .running → overflowsBuffer chunk s = false →
    s.inFlight = some r → r.expectedResponseLength ≤ (s.receiveBuffer ++ chunk).length →
    4 ≤ (s.receiveBuffer ++ chunk).length → crcCheck (s.receiveBuffer ++ chunk) = some false →
    ∃ detail, exec (.rx chunk) s = .next { s with
      inFlight := none
      receiveBuffer := []
      history := s.history ++ [{ time := s.clock, output := .event (.error .checksumError detail) }] }

/-- R216: a checksum-valid frame for another slave ends the request with no event; the buffer is cleared when
CLEAR_RX_ON_FOREIGN is true and left as it is when it is false (D12). -/
def Obligations.RxForeignFrame : Prop :=
  ∀ (chunk : Bytes) (s : State) (r : PendingRequest) (sid : Byte), s.mode = .running →
    overflowsBuffer chunk s = false → s.inFlight = some r →
    r.expectedResponseLength ≤ (s.receiveBuffer ++ chunk).length → 4 ≤ (s.receiveBuffer ++ chunk).length →
    crcCheck (s.receiveBuffer ++ chunk) = some true →
    (s.receiveBuffer ++ chunk).head? = some sid → sid ≠ s.slaveId →
    exec (.rx chunk) s = .next { s with
      inFlight := none
      receiveBuffer := if s.cfg.clearRxOnForeign then [] else s.receiveBuffer ++ chunk }

/-- R217: a valid function-0x01 frame gives CoilRead keyed by the request's address: one boolean when the
declared byte-length is 1, else one boolean for each byte present up to it; a byte is true when it equals
1 (R150; the sequence form: D14). -/
def Obligations.RxCoilRead : Prop :=
  ∀ (chunk data : Bytes) (s : State) (r : PendingRequest) (n : Byte), s.mode = .running →
    overflowsBuffer chunk s = false → s.inFlight = some r →
    s.receiveBuffer ++ chunk = crcAppend ([s.slaveId, 0x01, n] ++ data) →
    r.expectedResponseLength ≤ (s.receiveBuffer ++ chunk).length →
    (∀ b more, n = 0x01#8 → data = b :: more → exec (.rx chunk) s = .next { s with
      inFlight := none
      receiveBuffer := []
      history := s.history ++
        [{ time := s.clock, output := .event (.coilRead r.address (.single (decide (b = 0x01#8)))) }] }) ∧
    (n ≠ 0x01#8 → exec (.rx chunk) s = .next { s with
      inFlight := none
      receiveBuffer := []
      history := s.history ++ [{ time := s.clock, output := .event (.coilRead r.address
        (.sequence ((data.take n.toNat).map fun b => decide (b = 0x01#8)))) }] })

/-- R218: a valid function-0x03 frame gives RegisterRead keyed by the request's address, with the bytes up to
the declared length, in order (R151; a length not matched: D14). -/
def Obligations.RxRegisterRead : Prop :=
  ∀ (chunk data : Bytes) (s : State) (r : PendingRequest) (n : Byte), s.mode = .running →
    overflowsBuffer chunk s = false → s.inFlight = some r →
    s.receiveBuffer ++ chunk = crcAppend ([s.slaveId, 0x03, n] ++ data) →
    r.expectedResponseLength ≤ (s.receiveBuffer ++ chunk).length →
    exec (.rx chunk) s = .next { s with
      inFlight := none
      receiveBuffer := []
      history := s.history ++
        [{ time := s.clock, output := .event (.registerRead r.address (data.take n.toNat)) }] }

/-- R219, R220: a valid frame with code 0x05 or 0x10 acknowledges the request in flight, whatever its payload: the
echo is not compared (R152, the spec's own choice D37, log entry 14). -/
def Obligations.RxWriteAcknowledged : Prop :=
  ∀ (chunk P : Bytes) (s : State) (r : PendingRequest) (fc : Byte), s.mode = .running →
    overflowsBuffer chunk s = false → s.inFlight = some r →
    s.receiveBuffer ++ chunk = crcAppend ([s.slaveId, fc] ++ P) →
    r.expectedResponseLength ≤ (s.receiveBuffer ++ chunk).length →
    (fc = 0x05#8 → exec (.rx chunk) s = .next { s with
      inFlight := none
      receiveBuffer := []
      history := s.history ++ [{ time := s.clock, output := .event (.coilWritten r.address) }] }) ∧
    (fc = 0x10#8 → exec (.rx chunk) s = .next { s with
      inFlight := none
      receiveBuffer := []
      history := s.history ++ [{ time := s.clock, output := .event (.registerWritten r.address) }] })

/-- R221: any other function code ends the request with no event and clears the buffer (D13). -/
def Obligations.RxUnknownCode : Prop :=
  ∀ (chunk P : Bytes) (s : State) (r : PendingRequest) (fc : Byte), s.mode = .running →
    overflowsBuffer chunk s = false → s.inFlight = some r →
    s.receiveBuffer ++ chunk = crcAppend ([s.slaveId, fc] ++ P) →
    r.expectedResponseLength ≤ (s.receiveBuffer ++ chunk).length →
    fc ≠ 0x01#8 → fc ≠ 0x03#8 → fc ≠ 0x05#8 → fc ≠ 0x10#8 →
    exec (.rx chunk) s = .next { s with inFlight := none, receiveBuffer := [] }

/-- The spec refuses a chunk that passes a finite RXCAP (R211, U8, D17) and a single-coil response without its
byte (R150, U6, D14). -/
def Obligations.RxRefusals : Prop :=
  (∀ (chunk : Bytes) (s : State) (cap : Nat), s.mode = .running → s.cfg.rxCapacity = some cap →
    cap < (s.receiveBuffer ++ chunk).length → exec (.rx chunk) s = .refused .receiveBufferFull) ∧
  (∀ (chunk : Bytes) (s : State) (r : PendingRequest), s.mode = .running →
    overflowsBuffer chunk s = false → s.inFlight = some r → r.expectedResponseLength ≤ 5 →
    s.receiveBuffer ++ chunk = crcAppend [s.slaveId, 0x01, 0x01] →
    exec (.rx chunk) s = .refused .coilByteMissing)

/-- R223 (a), R52: below the expected length a split of the bytes into two RX operations does not matter, nor
does it with nothing in flight, whatever the parameters and the mode. -/
def Obligations.ChunkingDoesNotMatter : Prop :=
  ∀ (c1 c2 : Bytes) (s : State),
    (∀ r, s.inFlight = some r → (s.receiveBuffer ++ c1).length < r.expectedResponseLength) →
    runList [.rx c1, .rx c2] s = exec (.rx (c1 ++ c2)) s

/-- A wire-response row is RX of its whole frame (rules R217 to R221 of the rows; the model's reading: log
entry 11). -/
def Obligations.ResponseRowsAreReceived : Prop :=
  ∀ (i : Instr) (frame : Bytes) (s : State), i.kind = .receive → frameBytes i = some frame →
    exec i s = exec (.rx frame) s

/-- The wire-response rows complete (R217 to R221; log entry 11): with a request in flight, an empty buffer and
a frame of at least the expected length with a valid checksum and this slave's id. -/
def Obligations.ResponseRowsComplete : Prop :=
  ∀ (s : State) (r : PendingRequest), s.mode = .running → s.cfg.rxCapacity = none → s.receiveBuffer = [] →
    s.inFlight = some r →
    (∀ (b : Byte) (more : Bytes), r.expectedResponseLength ≤ 6 + more.length →
      exec (.rdcoilRsp s.slaveId 0x01 (b :: more) (crc16 ([s.slaveId, 0x01, 0x01] ++ b :: more))) s =
        .next { s with
          inFlight := none
          history := s.history ++
            [{ time := s.clock, output := .event (.coilRead r.address (.single (decide (b = 0x01#8)))) }] }) ∧
    (∀ (n : Byte) (data : Bytes), n ≠ 0x01#8 → r.expectedResponseLength ≤ 5 + data.length →
      exec (.rdcoilRsp s.slaveId n data (crc16 ([s.slaveId, 0x01, n] ++ data))) s =
        .next { s with
          inFlight := none
          history := s.history ++ [{ time := s.clock, output := .event (.coilRead r.address
            (.sequence ((data.take n.toNat).map fun b => decide (b = 0x01#8)))) }] }) ∧
    (∀ (n : Byte) (data : Bytes), r.expectedResponseLength ≤ 5 + data.length →
      exec (.rdregRsp s.slaveId n data (crc16 ([s.slaveId, 0x03, n] ++ data))) s =
        .next { s with
          inFlight := none
          history := s.history ++
            [{ time := s.clock, output := .event (.registerRead r.address (data.take n.toNat)) }] }) ∧
    (∀ x0 x1 x2 x3 : Byte, r.expectedResponseLength ≤ 8 →
      exec (.wrcoilRsp s.slaveId x0 x1 x2 x3 (crc16 [s.slaveId, 0x05, x0, x1, x2, x3])) s =
        .next { s with
          inFlight := none
          history := s.history ++ [{ time := s.clock, output := .event (.coilWritten r.address) }] } ∧
      exec (.wrregRsp s.slaveId x0 x1 x2 x3 (crc16 [s.slaveId, 0x10, x0, x1, x2, x3])) s =
        .next { s with
          inFlight := none
          history := s.history ++ [{ time := s.clock, output := .event (.registerWritten r.address) }] }) ∧
    (∀ (fc : Byte) (P : Bytes), isNamedFunctionCode fc = false → r.expectedResponseLength ≤ 4 + P.length →
      exec (.unknownRsp s.slaveId fc P (crc16 ([s.slaveId, fc] ++ P))) s =
        .next { s with inFlight := none })

/-! ### Transport, RESET -/

/-- R262: TR.OPENED emits Ready (D18), TR.CLOSED does nothing (D19), TR.ERROR emits TransportError with the
cause unchanged (R244); none changes a state element. -/
def Obligations.TransportNotifications : Prop :=
  ∀ (s : State) (cause : Bytes), s.mode = .running →
    exec .trOpened s =
      .next { s with history := s.history ++ [{ time := s.clock, output := .event .ready }] } ∧
    exec .trClosed s = .next s ∧
    exec (.trError cause) s = .next { s with history := s.history ++
      [{ time := s.clock, output := .event (.error .transportError (.cause cause)) }] }

/-- R280 on a legal slave id, in either mode: Running, the id latched, everything else empty, open() performed,
no event (re-reset: D21; placement of open(): D18). -/
def Obligations.ResetStarts : Prop :=
  ∀ (id : Int) (s : State), 1 ≤ id → id ≤ 255 →
    ∃ sid : Byte, (sid.toNat : Int) = id ∧ exec (.reset id) s = .next { s with
      mode := .running
      slaveId := sid
      queue := []
      inFlight := none
      lastSendTime := none
      receiveBuffer := []
      history := s.history ++ [{ time := s.clock, output := .action .opened }] }

/-- R247, R253: a RESET outside 1 to 255 raises InvalidIdentifier, leaves Refused with empty state, performs no
open() and emits no event; what slaveId then holds is left open (R35, U3). -/
def Obligations.ResetRefusesBadIdentifier : Prop :=
  ∀ (id : Int) (s : State), (id < 1 ∨ 255 < id) →
    ∃ t, exec (.reset id) s = .next t ∧ t.mode = .refused ∧ t.queue = [] ∧ t.inFlight = none ∧
      t.lastSendTime = none ∧ t.receiveBuffer = [] ∧ t.cfg = s.cfg ∧ t.clock = s.clock ∧ t.trace = s.trace ∧
      t.history = s.history ++ [{ time := s.clock, output := .result (.raised .invalidIdentifier) }]

/-- R35, R7: the reset state holds the values of R35 for the tests' slave id 1 and the default parameters, and
it is what RESET 1 leaves (log entries 1, 2, 5 and 6 for what is the model's choice). -/
def Obligations.ResetStateValues : Prop :=
  State.reset.mode = .running ∧ State.reset.slaveId = 1 ∧ State.reset.queue = [] ∧
  State.reset.inFlight = none ∧ State.reset.lastSendTime = none ∧ State.reset.receiveBuffer = [] ∧
  State.reset.cfg.tTick = 100 ∧ State.reset.cfg.tGap = 250 ∧
  State.reset.cfg.queueDepth = none ∧ State.reset.cfg.rxCapacity = none ∧
  State.reset.cfg.timeBits = none ∧ State.reset.cfg.wrregField16 = .registerCount ∧
  State.reset.cfg.clearRxOnForeign = true ∧
  (∀ s : State, s.cfg = Config.default → s.clock = 0 → s.history = [] → s.trace = [] → s.freeCount = 0 →
    exec (.reset 1) s = .next State.reset)

/-! ### The whole machine -/

/-- R21, R186, R255, R262, R281: while Refused every operation but RESET is refused (D20, D35), the pure functions
among them (R15, R98, R99; log entry 12). -/
def Obligations.RefusedModeRefusesOperations : Prop :=
  ∀ (i : Instr) (s : State), s.mode = .refused → i.kind ≠ .reset → exec i s = .refused .notRunning

/-- R20, R22, R26, R281: each element is written by the operations of R20's table alone, the parameters and
the bytes still to be taken by none. -/
def Obligations.EachElementHasItsWriters : Prop :=
  ∀ (i : Instr) (s t : State), exec i s = .next t →
    (i.kind ≠ .reset → t.mode = s.mode ∧ t.slaveId = s.slaveId) ∧
    (i.kind ≠ .enqueue → i.kind ≠ .tick → i.kind ≠ .reset → t.queue = s.queue) ∧
    (i.kind ≠ .tick → i.kind ≠ .receive → i.kind ≠ .reset → t.inFlight = s.inFlight) ∧
    (i.kind ≠ .tick → i.kind ≠ .reset → t.lastSendTime = s.lastSendTime) ∧
    (i.kind ≠ .receive → i.kind ≠ .reset → t.receiveBuffer = s.receiveBuffer) ∧
    t.cfg = s.cfg ∧ t.trace = s.trace

/-- R249, R59 (d), (f): an operation emits at most one event and writes at most one frame, never both (R190, R192
(c): a TICK that dispatches does not time out), and takes no output back; events come only from TICK, from
received bytes and from the transport. -/
def Obligations.OneEventOneWritePerOperation : Prop :=
  ∀ (i : Instr) (s t : State), exec i s = .next t →
    s.history <+: t.history ∧
    (∃ es ws, events t = events s ++ es ∧ writes t = writes s ++ ws ∧ es.length + ws.length ≤ 1 ∧
      (es ≠ [] → i.kind = .tick ∨ i.kind = .receive ∨ i.kind = .transport))

/-- R59 (b), R24: a frame is written only by a TICK that finds nothing in flight; it is the head of the queue,
and it is in flight afterwards. -/
def Obligations.SingleInFlight : Prop :=
  ∀ (i : Instr) (s t : State), exec i s = .next t → writes t ≠ writes s →
    ∃ now r rest, i = .tick now ∧ s.inFlight = none ∧ s.queue = r :: rest ∧
      writes t = writes s ++ [(now, r.outgoingFrame)] ∧ t.inFlight = some r ∧ t.queue = rest

/-- R59 (a), R33 (c): along any run without RESET the frames written are, in order, a prefix of the frames
queued at its start followed by the frames accepted during it, and the rest of them is the queue at its
end. -/
def Obligations.FifoService : Prop :=
  ∀ (is : List Instr) (s t : State), (∀ i ∈ is, i.kind ≠ .reset) → runList is s = .next t →
    ∃ sent : List Bytes,
      (writes t).map (·.2) = (writes s).map (·.2) ++ sent ∧
      s.queue.map (·.outgoingFrame) ++ acceptedAlong is s = sent ++ t.queue.map (·.outgoingFrame)

/-- The invariant of R33 (with R22, R25 and the bounds of R23 and R26) and the spacing of R59 (c) hold at
State.reset, whose slave id, parameters and clock are the model's choice (log entries 1, 2 and 5). -/
def Obligations.InvariantAtReset : Prop := Inv State.reset ∧ Spaced State.reset

/-- R33: every step keeps the invariant, from every state that meets it and for every choice of the
parameters. -/
def Obligations.InvariantKeptByStep : Prop :=
  ∀ s t : State, Inv s → step s = .next t → Inv t

/-- R59 (c): every step keeps every two writes since RESET at least T_GAP apart in the times presented, for every
W_T: a wrapped elapsed time is never longer than the true one (R303). -/
def Obligations.SpacingKeptByStep : Prop :=
  ∀ s t : State, Inv s → Spaced s → step s = .next t → Spaced t

/-- R251: the order of a TICK and an RX presented together matters when the window has just closed and the last
bytes of a valid read response have just arrived: RX first gives the result and no Timeout, TICK first
gives the Timeout and leaves the bytes in the buffer. -/
def Obligations.OrderOfTickAndRxMatters : Prop :=
  ∀ (s : State) (r : PendingRequest) (t now : Nat) (chunk data : Bytes) (n : Byte),
    s.mode = .running → timeAccepted now s = true → overflowsBuffer chunk s = false →
    s.inFlight = some r → s.lastSendTime = some t → 5000 < elapsed s.cfg now t →
    s.receiveBuffer ++ chunk = crcAppend ([s.slaveId, 0x03, n] ++ data) →
    r.expectedResponseLength ≤ (s.receiveBuffer ++ chunk).length →
    (∃ a, runList [.rx chunk, .tick now] s = .next a ∧
      events a = events s ++ [.registerRead r.address (data.take n.toNat)] ∧ a.receiveBuffer = []) ∧
    (∃ b, runList [.tick now, .rx chunk] s = .next b ∧
      events b = events s ++ [.error .timeout (.address r.address)] ∧
      b.inFlight = none ∧ b.receiveBuffer = s.receiveBuffer ++ chunk)

/-! ### Conditions, lengths and requests over time -/

/-- What the conditions of the other statements say: the queue has room when QDEPTH is unbounded or not reached
(R181, D16), a time is accepted exactly when it is not below the clock (R12, U11; log entry 5), and the buffer
overflows only past a finite RXCAP (R211, D17). -/
def Obligations.ConditionsAdmit : Prop :=
  ∀ s : State,
    (s.cfg.queueDepth = none → queueFull s = false) ∧
    (∀ n, s.cfg.queueDepth = some n → (queueFull s = true ↔ n ≤ s.queue.length)) ∧
    (∀ now, timeAccepted now s = true ↔ s.clock ≤ now) ∧
    (s.cfg.rxCapacity = none → ∀ chunk, overflowsBuffer chunk s = false) ∧
    (∀ n chunk, s.cfg.rxCapacity = some n →
      (overflowsBuffer chunk s = true ↔ n < (s.receiveBuffer ++ chunk).length))

/-- R96: the expected response length of a request that an enqueue operation accepts. -/
def Obligations.ExpectedResponseLengths : Prop :=
  ∀ (a : AddrOperand) (x : U16) (value : Bool) (words : List U16) (now : Nat) (s t : State),
    t.queue ≠ s.queue →
    (exec (.enqRdcoil a x now) s = .next t →
      ∃ d, t.queue = s.queue ++ [d] ∧ d.expectedResponseLength = 6) ∧
    (exec (.enqRdreg a x now) s = .next t →
      ∃ d, t.queue = s.queue ++ [d] ∧ d.expectedResponseLength = 3 + 2 * x.toNat + 2) ∧
    (exec (.enqWrcoil a value now) s = .next t →
      ∃ d, t.queue = s.queue ++ [d] ∧ d.expectedResponseLength = 8) ∧
    (exec (.enqWrreg a words now) s = .next t →
      ∃ d, t.queue = s.queue ++ [d] ∧ d.expectedResponseLength = 8)

/-- R61: a request is fixed when it is enqueued. Between resets an operation leaves every queued request in the
queue, in its place and with all its fields, but the head that a TICK puts in flight, whose stored bytes are
then written unchanged; a request in flight stays as it is until it ends; and slaveId stays. -/
def Obligations.RequestsFixedAtEnqueue : Prop :=
  ∀ (i : Instr) (s t : State), exec i s = .next t → i.kind ≠ .reset →
    ((∃ added, t.queue = s.queue ++ added ∧ (writes t).map (·.2) = (writes s).map (·.2) ∧
        (t.inFlight = s.inFlight ∨ t.inFlight = none)) ∨
      (∃ r, i.kind = .tick ∧ s.inFlight = none ∧ s.queue = r :: t.queue ∧ t.inFlight = some r ∧
        (writes t).map (·.2) = (writes s).map (·.2) ++ [r.outgoingFrame])) ∧
    t.slaveId = s.slaveId
end

