-- ==== Sys2Proof/Laws/Bytes.lean ====
section
/-! SUPPORT. The packing of bytes is a bijection, and the shape of CRC.CHECK on a sequence with a trailer. -/

namespace Sys2Proof.Machine

theorem toNat_joinBytes (h l : Byte) : (joinBytes h l).toNat = h.toNat * 256 + l.toNat := by
  unfold joinBytes
  rw [BitVec.toNat_append, ← Nat.shiftLeft_add_eq_or_of_lt l.isLt]
  simp [Nat.shiftLeft_eq]

theorem toNat_hi8 (v : U16) : (hi8 v).toNat = v.toNat / 256 := by
  have := v.isLt
  simp [hi8, Nat.shiftRight_eq_div_pow]; omega

theorem toNat_lo8 (v : U16) : (lo8 v).toNat = v.toNat % 256 := by
  simp [lo8]

@[simp] theorem joinBytes_hi8_lo8 (v : U16) : joinBytes (hi8 v) (lo8 v) = v := by
  apply BitVec.eq_of_toNat_eq
  rw [toNat_joinBytes, toNat_hi8, toNat_lo8]; omega

@[simp] theorem hi8_joinBytes (h l : Byte) : hi8 (joinBytes h l) = h := by
  apply BitVec.eq_of_toNat_eq
  have := l.isLt
  rw [toNat_hi8, toNat_joinBytes]; omega

@[simp] theorem lo8_joinBytes (h l : Byte) : lo8 (joinBytes h l) = l := by
  apply BitVec.eq_of_toNat_eq
  have := l.isLt
  rw [toNat_lo8, toNat_joinBytes]; omega

@[simp] theorem length_be16s (ws : List U16) : (be16s ws).length = 2 * ws.length := by
  induction ws with
  | nil => rfl
  | cons w ws ih => simp only [be16s, List.flatMap_cons, List.length_append] at ih ⊢; simp [be16]; omega

theorem crc16_append (B C : Bytes) : crc16 (B ++ C) = crcFrom (crc16 B) C := by
  simp [crc16, crcFrom]

theorem crcCheck_trailer (B : Bytes) (l h : Byte) :
    crcCheck (B ++ [l, h]) = some (crc16 B == joinBytes h l) := by
  simp [crcCheck]

theorem beq_joinBytes (c : U16) (h l : Byte) :
    (c == joinBytes h l) = decide (c.toNat = h.toNat * 256 + l.toNat) := by
  simp only [← toNat_joinBytes, BitVec.toNat_inj, beq_eq_decide]

/-- Every sequence of at least two bytes is some bytes and a trailer. -/
theorem exists_trailer {F : Bytes} (h : 2 ≤ F.length) : ∃ B l m, F = B ++ [l, m] := by
  have hd : (F.drop (F.length - 2)).length = 2 := by simp; omega
  match he : F.drop (F.length - 2), hd with
  | [l, m], _ => exact ⟨F.take (F.length - 2), l, m, by rw [← he, List.take_append_drop]⟩

end Sys2Proof.Machine
end

