-- ==== Sys2Proof/Laws/Decode.lean ====
section
/-! SUPPORT. Each operand decoder of the trace reads back what its encoder wrote, and reads nothing else. -/

namespace Sys2Proof
open Machine

theorem encNatFuel_eq {f n : Nat} (h : n ≤ f) : encNatFuel f n = encNatFuel n n := by
  induction n using Nat.strong_induction_on generalizing f with
  | _ n ih =>
    match f, n with
    | 0, 0 => rfl
    | f + 1, 0 => rfl
    | f + 1, n + 1 =>
      simp only [encNatFuel]
      split
      · rfl
      · rw [ih ((n + 1) / 128) (by omega) (by omega), ih ((n + 1) / 128) (by omega) (f := n) (by omega)]

theorem encNat_small {n : Nat} (h : n < 128) : encNat n = [BitVec.ofNat 8 n] := by
  unfold encNat
  cases n with
  | zero => rfl
  | succ n => simp only [encNatFuel, h, if_true]

theorem encNat_large {n : Nat} (h : 128 ≤ n) :
    encNat n = BitVec.ofNat 8 (n % 128 + 128) :: encNat (n / 128) := by
  unfold encNat
  cases n with
  | zero => omega
  | succ n =>
    have : ¬ n + 1 < 128 := by omega
    simp only [encNatFuel, this, if_false]
    rw [encNatFuel_eq (by omega)]

theorem decNat_encNat (n : Nat) (rest : Bytes) : decNat (encNat n ++ rest) = .ok (n, rest) := by
  induction n using Nat.strong_induction_on with
  | _ n ih =>
    by_cases h : n < 128
    · rw [encNat_small h, List.singleton_append, decNat]
      have e : (BitVec.ofNat 8 n).toNat = n := by simp; omega
      rw [e, if_pos h]
    · rw [encNat_large (by omega), List.cons_append, decNat, ih _ (by omega)]
      have e : (BitVec.ofNat 8 (n % 128 + 128)).toNat = n % 128 + 128 := by simp; omega
      rw [e, if_neg (by omega)]
      simp only
      rw [if_neg (by omega), show n % 128 + 128 - 128 + 128 * (n / 128) = n by omega]

theorem eq_of_decNat {bs rest : Bytes} {n : Nat} (h : decNat bs = .ok (n, rest)) : bs = encNat n ++ rest := by
  induction bs generalizing n with
  | nil => cases h
  | cons b bs ih =>
    rw [decNat] at h
    split at h
    · next hb =>
      injection h with h; injection h with h1 h2; subst h1 h2
      rw [encNat_small hb]; simp
    · next hb =>
      split at h
      · cases h
      · next m r hm =>
        split at h
        · cases h
        · next h0 =>
          injection h with h; injection h with h1 h2; subst h1 h2
          rw [encNat_large (by have := b.isLt; omega), ih hm, List.cons_append]
          have := b.isLt
          rw [show (b.toNat - 128 + 128 * m) / 128 = m by omega, show (b.toNat - 128 + 128 * m) % 128 + 128 = b.toNat by omega]
          simp

theorem decInt_encInt (v : Int) (rest : Bytes) : decInt (encInt v ++ rest) = .ok (v, rest) := by
  cases v with
  | ofNat v =>
    simp only [encInt, decInt, decNat_encNat]
    rw [if_pos (by omega), show 2 * v / 2 = v by omega]
  | negSucc v =>
    simp only [encInt, decInt, decNat_encNat]
    rw [if_neg (by omega), show (2 * v + 1) / 2 = v by omega]

theorem eq_of_decInt {bs rest : Bytes} {v : Int} (h : decInt bs = .ok (v, rest)) : bs = encInt v ++ rest := by
  unfold decInt at h
  split at h
  · cases h
  · next n r hn =>
    rw [eq_of_decNat hn]
    split at h <;> next hp =>
      injection h with h; injection h with h1 h2; subst h1 h2
      simp only [encInt]; congr 2; omega

theorem decBytes_encBytes (least : Nat) (b rest : Bytes) :
    decBytes least (encBytes least b ++ rest) = .ok (b, rest) := by
  simp only [encBytes, List.append_assoc, decBytes, decInt_encInt]
  rw [if_neg (by omega), show ((least : Int) + ((b.length : Int) - least)).toNat = b.length by omega, takeBytes, if_neg (by simp)]
  simp

theorem eq_of_decBytes {least : Nat} {bs b rest : Bytes} (h : decBytes least bs = .ok (b, rest)) :
    bs = encBytes least b ++ rest := by
  unfold decBytes at h
  split at h
  · cases h
  · next d r hd =>
    split at h
    · cases h
    · next hn =>
      unfold takeBytes at h
      split at h
      · cases h
      · next hl =>
        injection h with h; injection h with h1 h2
        rw [eq_of_decInt hd, encBytes, ← h1, ← h2, List.append_assoc, List.take_append_drop]
        congr 2
        rw [List.length_take]; omega

theorem toNat_joinBytes4 (b0 b1 b2 b3 : Byte) : (joinBytes4 b0 b1 b2 b3).toNat =
    b0.toNat * 2 ^ 24 + b1.toNat * 2 ^ 16 + b2.toNat * 2 ^ 8 + b3.toNat := by
  unfold joinBytes4
  rw [BitVec.toNat_append, ← Nat.shiftLeft_add_eq_or_of_lt b3.isLt, BitVec.toNat_append,
    ← Nat.shiftLeft_add_eq_or_of_lt b2.isLt, BitVec.toNat_append,
    ← Nat.shiftLeft_add_eq_or_of_lt b1.isLt]
  simp [Nat.shiftLeft_eq]; omega

theorem be32_joinBytes4 (b0 b1 b2 b3 : Byte) : be32 (joinBytes4 b0 b1 b2 b3) = [b0, b1, b2, b3] := by
  have := b0.isLt; have := b1.isLt; have := b2.isLt; have := b3.isLt
  simp only [be32, List.cons.injEq, and_true]
  refine ⟨?_, ?_, ?_, ?_⟩ <;> apply BitVec.eq_of_toNat_eq <;>
    simp only [BitVec.extractLsb'_toNat, Nat.shiftRight_eq_div_pow, toNat_joinBytes4] <;> omega

theorem decU32_be32 (x : U32) (rest : Bytes) : decU32 (be32 x ++ rest) = .ok (x, rest) := by
  simp only [be32, List.cons_append, List.nil_append, decU32]
  congr 2
  apply BitVec.eq_of_toNat_eq
  rw [toNat_joinBytes4]
  simp only [BitVec.extractLsb'_toNat, Nat.shiftRight_eq_div_pow]
  have := x.isLt; omega

theorem eq_of_decU32 {bs rest : Bytes} {x : U32} (h : decU32 bs = .ok (x, rest)) : bs = be32 x ++ rest := by
  unfold decU32 at h
  split at h
  · injection h with h; injection h with h1 h2; subst h1 h2; rw [be32_joinBytes4]; rfl
  · cases h

theorem be16_joinBytes (h l : Byte) : be16 (joinBytes h l) = [h, l] := by simp [be16]

theorem decU16_be16 (v : U16) (rest : Bytes) : decU16 (be16 v ++ rest) = .ok (v, rest) := by
  simp [be16, decU16]

theorem eq_of_decU16 {bs rest : Bytes} {v : U16} (h : decU16 bs = .ok (v, rest)) : bs = be16 v ++ rest := by
  unfold decU16 at h
  split at h
  · injection h with h; injection h with h1 h2; subst h1 h2; rw [be16_joinBytes]; rfl
  · cases h

theorem eq_of_decByte {bs rest : Bytes} {b : Byte} (h : decByte bs = .ok (b, rest)) : bs = b :: rest := by
  unfold decByte at h
  split at h
  · cases h
  · injection h with h; injection h with h1 h2; subst h1 h2; rfl

theorem decBool_encBool (v : Bool) (rest : Bytes) : decBool (encBool v ++ rest) = .ok (v, rest) := by
  cases v <;> simp [encBool, decBool]

theorem eq_of_decBool {bs rest : Bytes} {v : Bool} (h : decBool bs = .ok (v, rest)) : bs = encBool v ++ rest := by
  unfold decBool at h
  split at h
  · cases h
  · next b r =>
    split at h
    · next hb => injection h with h; injection h with h1 h2; subst h1 h2 hb; rfl
    · split at h
      · next hb => injection h with h; injection h with h1 h2; subst h1 h2 hb; rfl
      · cases h

/-- From a bind of the decoder that succeeds, its first part succeeded. -/
theorem bind_ok {α β : Type} {x : Except DecodeError α} {f : α → Except DecodeError β} {b : β}
    (h : (x >>= f) = .ok b) : ∃ a, x = .ok a ∧ f a = .ok b := by
  cases x with
  | error e => cases h
  | ok a => exact ⟨a, rfl, h⟩

theorem ok_bind {α β : Type} (a : α) (f : α → Except DecodeError β) : (Except.ok a >>= f) = f a := rfl

theorem decAddr_encAddr (a : AddrOperand) (rest : Bytes) : decAddr (encAddr a ++ rest) = .ok (a, rest) := by
  cases a with
  | int v => simp [encAddr, decAddr, decInt_encInt, ok_bind]
  | pair h l => simp [encAddr, decAddr, decInt_encInt, ok_bind]
  | other => simp [encAddr, decAddr]

theorem eq_of_decAddr {bs rest : Bytes} {a : AddrOperand} (h : decAddr bs = .ok (a, rest)) :
    bs = encAddr a ++ rest := by
  unfold decAddr at h
  split at h
  · cases h
  · next b r =>
    split at h
    · next hb =>
      obtain ⟨⟨v, r1⟩, e, h⟩ := bind_ok h
      injection h with h; injection h with h1 h2; subst h1 h2 hb; rw [eq_of_decInt e]; rfl
    · split at h
      · next hb =>
        obtain ⟨⟨v, r1⟩, e, h⟩ := bind_ok h
        obtain ⟨⟨w, r2⟩, e2, h⟩ := bind_ok h
        injection h with h; injection h with h1 h2; subst h1 h2 hb
        rw [eq_of_decInt e, eq_of_decInt e2]; simp [encAddr]
      · split at h
        · next hb => injection h with h; injection h with h1 h2; subst h1 h2 hb; rfl
        · cases h

theorem decWordsN_be16s (ws : List U16) (rest : Bytes) :
    decWordsN ws.length (be16s ws ++ rest) = .ok (ws, rest) := by
  induction ws with
  | nil => rfl
  | cons w ws ih =>
    have e : be16s (w :: ws) ++ rest = be16 w ++ (be16s ws ++ rest) := by simp [be16s]
    rw [e, List.length_cons, decWordsN]
    simp only [decU16_be16, ok_bind, ih]

theorem eq_of_decWordsN {k : Nat} {bs rest : Bytes} {ws : List U16} (h : decWordsN k bs = .ok (ws, rest)) :
    ws.length = k ∧ bs = be16s ws ++ rest := by
  induction k generalizing bs ws with
  | zero => injection h with h; injection h with h1 h2; subst h1 h2; exact ⟨rfl, rfl⟩
  | succ k ih =>
    obtain ⟨⟨w, r⟩, e, h⟩ := bind_ok h
    obtain ⟨⟨vs, r2⟩, e2, h⟩ := bind_ok h
    injection h with h; injection h with h1 h2; subst h1 h2
    obtain ⟨hl, hb⟩ := ih e2
    rw [eq_of_decU16 e, hb]
    exact ⟨by simp [hl], by simp [be16s]⟩

theorem decWords_encWords (ws : List U16) (rest : Bytes) : decWords (encWords ws ++ rest) = .ok (ws, rest) := by
  simp only [decWords, encWords, List.append_assoc, decNat_encNat, ok_bind, decWordsN_be16s]

theorem eq_of_decWords {bs rest : Bytes} {ws : List U16} (h : decWords bs = .ok (ws, rest)) :
    bs = encWords ws ++ rest := by
  obtain ⟨⟨k, r⟩, e, h⟩ := bind_ok h
  obtain ⟨hl, hb⟩ := eq_of_decWordsN h
  rw [eq_of_decNat e, hb, encWords, hl, List.append_assoc]

theorem decPartsN_flatMap (ps : List Bytes) (rest : Bytes) :
    decPartsN ps.length (ps.flatMap (encBytes 0) ++ rest) = .ok (ps, rest) := by
  induction ps with
  | nil => rfl
  | cons p ps ih =>
    rw [List.flatMap_cons, List.append_assoc, List.length_cons, decPartsN]
    simp only [decBytes_encBytes, ok_bind, ih]

theorem eq_of_decPartsN {k : Nat} {bs rest : Bytes} {ps : List Bytes} (h : decPartsN k bs = .ok (ps, rest)) :
    ps.length = k ∧ bs = ps.flatMap (encBytes 0) ++ rest := by
  induction k generalizing bs ps with
  | zero => injection h with h; injection h with h1 h2; subst h1 h2; exact ⟨rfl, rfl⟩
  | succ k ih =>
    obtain ⟨⟨w, r⟩, e, h⟩ := bind_ok h
    obtain ⟨⟨vs, r2⟩, e2, h⟩ := bind_ok h
    injection h with h; injection h with h1 h2; subst h1 h2
    obtain ⟨hl, hb⟩ := ih e2
    rw [eq_of_decBytes e, hb]
    exact ⟨by simp [hl], by simp⟩

theorem decParts_encParts (ps : List Bytes) (rest : Bytes) : decParts (encParts ps ++ rest) = .ok (ps, rest) := by
  simp only [decParts, encParts, List.append_assoc, decNat_encNat, ok_bind, decPartsN_flatMap]

theorem eq_of_decParts {bs rest : Bytes} {ps : List Bytes} (h : decParts bs = .ok (ps, rest)) :
    bs = encParts ps ++ rest := by
  obtain ⟨⟨k, r⟩, e, h⟩ := bind_ok h
  obtain ⟨hl, hb⟩ := eq_of_decPartsN h
  rw [eq_of_decNat e, hb, encParts, hl, List.append_assoc]

theorem pairWords_be16s (ws : List U16) : pairWords (be16s ws) = some ws := by
  induction ws with
  | nil => rfl
  | cons w ws ih =>
    have e : be16s (w :: ws) = hi8 w :: lo8 w :: be16s ws := rfl
    rw [e, pairWords, ih]; simp

theorem eq_of_pairWords {bs : Bytes} {ws : List U16} (h : pairWords bs = some ws) : bs = be16s ws := by
  induction ws generalizing bs with
  | nil =>
    match bs, h with
    | [], _ => rfl
    | h1 :: l :: bs, h => cases hp : pairWords bs <;> rw [pairWords, hp] at h <;> cases h
  | cons w ws ih =>
    match bs, h with
    | h1 :: l :: bs, h =>
      rw [pairWords] at h
      cases hp : pairWords bs with
      | none => rw [hp] at h; cases h
      | some vs =>
        rw [hp] at h; injection h with h; injection h with e1 e2; subst e1 e2
        rw [ih hp]; simp [be16s, be16]

end Sys2Proof
end

