-- ==== Sys2Proof/Laws/State.lean ====
section
/-! SUPPORT. The fields of a state after each named update of Machine/Ops.lean. -/

namespace Sys2Proof.Machine

@[simp] theorem emit_eq_record (e : Event) (s : State) : emit e s = record (.event e) s := rfl
@[simp] theorem act_eq_record (a : Action) (s : State) : act a s = record (.action a) s := rfl
@[simp] theorem answer_eq_record (r : Result) (s : State) : answer r s = record (.result r) s := rfl
@[simp] theorem raise_eq_record (k : ErrorKind) (s : State) : raise k s = record (.result (.raised k)) s := rfl

@[simp] theorem record_mode (o : Output) (s : State) : (record o s).mode = s.mode := rfl
@[simp] theorem record_slaveId (o : Output) (s : State) : (record o s).slaveId = s.slaveId := rfl
@[simp] theorem record_queue (o : Output) (s : State) : (record o s).queue = s.queue := rfl
@[simp] theorem record_inFlight (o : Output) (s : State) : (record o s).inFlight = s.inFlight := rfl
@[simp] theorem record_lastSendTime (o : Output) (s : State) : (record o s).lastSendTime = s.lastSendTime := rfl
@[simp] theorem record_receiveBuffer (o : Output) (s : State) : (record o s).receiveBuffer = s.receiveBuffer := rfl
@[simp] theorem record_cfg (o : Output) (s : State) : (record o s).cfg = s.cfg := rfl
@[simp] theorem record_clock (o : Output) (s : State) : (record o s).clock = s.clock := rfl
@[simp] theorem record_history (o : Output) (s : State) :
    (record o s).history = s.history ++ [{ time := s.clock, output := o }] := rfl
@[simp] theorem record_trace (o : Output) (s : State) : (record o s).trace = s.trace := rfl
@[simp] theorem record_freeCount (o : Output) (s : State) : (record o s).freeCount = s.freeCount := rfl

@[simp] theorem clearBuffer_mode (s : State) : (clearBuffer s).mode = s.mode := rfl
@[simp] theorem clearBuffer_slaveId (s : State) : (clearBuffer s).slaveId = s.slaveId := rfl
@[simp] theorem clearBuffer_queue (s : State) : (clearBuffer s).queue = s.queue := rfl
@[simp] theorem clearBuffer_inFlight (s : State) : (clearBuffer s).inFlight = s.inFlight := rfl
@[simp] theorem clearBuffer_lastSendTime (s : State) : (clearBuffer s).lastSendTime = s.lastSendTime := rfl
@[simp] theorem clearBuffer_receiveBuffer (s : State) : (clearBuffer s).receiveBuffer = [] := rfl
@[simp] theorem clearBuffer_cfg (s : State) : (clearBuffer s).cfg = s.cfg := rfl
@[simp] theorem clearBuffer_clock (s : State) : (clearBuffer s).clock = s.clock := rfl
@[simp] theorem clearBuffer_history (s : State) : (clearBuffer s).history = s.history := rfl
@[simp] theorem clearBuffer_trace (s : State) : (clearBuffer s).trace = s.trace := rfl
@[simp] theorem clearBuffer_freeCount (s : State) : (clearBuffer s).freeCount = s.freeCount := rfl

@[simp] theorem emptied_mode (s : State) : (emptied s).mode = s.mode := rfl
@[simp] theorem emptied_slaveId (s : State) : (emptied s).slaveId = s.slaveId := rfl
@[simp] theorem emptied_queue (s : State) : (emptied s).queue = [] := rfl
@[simp] theorem emptied_inFlight (s : State) : (emptied s).inFlight = none := rfl
@[simp] theorem emptied_lastSendTime (s : State) : (emptied s).lastSendTime = none := rfl
@[simp] theorem emptied_receiveBuffer (s : State) : (emptied s).receiveBuffer = [] := rfl
@[simp] theorem emptied_cfg (s : State) : (emptied s).cfg = s.cfg := rfl
@[simp] theorem emptied_clock (s : State) : (emptied s).clock = s.clock := rfl
@[simp] theorem emptied_history (s : State) : (emptied s).history = s.history := rfl
@[simp] theorem emptied_trace (s : State) : (emptied s).trace = s.trace := rfl
@[simp] theorem emptied_freeCount (s : State) : (emptied s).freeCount = s.freeCount := rfl

end Sys2Proof.Machine
end

