-- ==== Sys2Proof/Laws/Ops.lean ====
section
/-! SUPPORT. One lemma for each shared operation that says everything it can do, and the one for `exec` that
says what a next state can be, by the kind of the operation. -/

namespace Sys2Proof.Machine

open Host

/-! ### The two gates -/

theorem requireRunning_running {s : State} {k} (h : s.mode = .running) : requireRunning s k = k s := by
  simp [requireRunning, h]

theorem requireRunning_refused {s : State} {k} (h : s.mode = .refused) :
    requireRunning s k = .refused .notRunning := by
  simp [requireRunning, h]

theorem requireRunning_next {s s' : State} {k} (h : requireRunning s k = .next s') :
    s.mode = .running ∧ k s = .next s' := by
  cases hm : s.mode with
  | running => exact ⟨rfl, by rwa [requireRunning_running hm] at h⟩
  | refused => rw [requireRunning_refused hm] at h; cases h

theorem timeAccepted_iff {now : Nat} {s : State} : timeAccepted now s = true ↔ s.clock ≤ now := by
  simp [timeAccepted]

theorem atTime_refused {now : Nat} {s : State} {k} (h : now < s.clock) :
    atTime now s k = .refused .clockWentBack := by
  simp [atTime, timeAccepted, h]

theorem atTime_accepted {now : Nat} {s : State} {k} (h : timeAccepted now s = true) :
    atTime now s k = k { s with clock := now } := by
  simp [atTime, h]

theorem atTime_next {now : Nat} {s s' : State} {k} (h : atTime now s k = .next s') :
    timeAccepted now s = true ∧ k { s with clock := now } = .next s' := by
  unfold atTime at h
  split at h
  next ht => exact ⟨ht, h⟩
  next => cases h

/-! ### ENQUEUE, the two steps of TICK, RX -/

theorem enqueue_full {d : PendingRequest} {s : State} (h : queueFull s = true) :
    enqueue d s = raise .queueFull s := by
  simp only [enqueue, h, if_true]

theorem enqueue_room {d : PendingRequest} {s : State} (h : queueFull s = false) :
    enqueue d s = answer .ok { s with queue := s.queue ++ [d] } := by
  simp only [enqueue, h, Bool.false_eq_true, if_false]

theorem dispatchStep_cases (now : Nat) (s : State) :
    (∃ r rest, s.inFlight = none ∧ s.queue = r :: rest ∧ spacingPassed now s = true ∧
      dispatchStep now s = act (.write r.outgoingFrame)
        { s with queue := rest, inFlight := some r, lastSendTime := some (wrapTime s.cfg now) }) ∨
    dispatchStep now s = s := by
  cases hf : s.inFlight with
  | some r => right; simp [dispatchStep, hf]
  | none =>
    cases hq : s.queue with
    | nil => right; simp [dispatchStep, hf, hq]
    | cons r rest =>
      cases hs : spacingPassed now s with
      | true => exact .inl ⟨r, rest, rfl, rfl, rfl, by simp only [dispatchStep, hf, hq, hs, if_true]⟩
      | false => right; simp [dispatchStep, hf, hq, hs]

theorem timeoutStep_cases (now : Nat) (s : State) :
    (∃ r t, s.inFlight = some r ∧ s.lastSendTime = some t ∧ windowClosed now t s = true ∧
      timeoutStep now s = emit (.error .timeout (.address r.address)) { s with inFlight := none }) ∨
    timeoutStep now s = s := by
  cases hf : s.inFlight with
  | none => right; simp [timeoutStep, hf]
  | some r =>
    cases hl : s.lastSendTime with
    | none => right; simp [timeoutStep, hf, hl]
    | some t =>
      cases hw : windowClosed now t s with
      | true => exact .inl ⟨r, t, rfl, rfl, hw, by simp only [timeoutStep, hf, hl, hw, if_true]⟩
      | false => right; simp [timeoutStep, hf, hl, hw]

/-- No time has passed since a dispatch in the same TICK. -/
theorem elapsed_wrapTime_self (c : Config) (now : Nat) : elapsed c now (wrapTime c now) = 0 := by
  unfold elapsed wrapTime
  cases c.timeBits with
  | none => simp
  | some w =>
    have := Nat.mod_lt now (Nat.two_pow_pos w)
    simp only [Nat.mod_mod, Nat.add_sub_cancel' this.le, Nat.mod_self]

/-- A time held with a finite W_T never looks longer ago than it is (R303). -/
theorem elapsed_wrapTime_le (c : Config) {now t : Nat} (h : t ≤ now) : elapsed c now (wrapTime c t) ≤ now - t := by
  unfold elapsed wrapTime
  cases c.timeBits with
  | none => exact Nat.le_refl _
  | some w =>
    obtain ⟨d, rfl⟩ := Nat.exists_eq_add_of_le h
    simp only [Nat.mod_mod, Nat.add_sub_cancel_left]
    have hm := Nat.two_pow_pos w
    generalize 2 ^ w = m at *
    have ht := Nat.mod_lt t hm
    have e : (t + d) % m = (t % m + d) % m := by simp [Nat.add_mod]
    rw [e, Nat.mod_add_mod, show t % m + d + (m - t % m) = d + m by omega, Nat.add_mod_right]
    exact Nat.mod_le _ _

theorem dispatchStep_inFlight {now : Nat} {s : State} {r : PendingRequest} (h : s.inFlight = some r) :
    dispatchStep now s = s := by
  simp [dispatchStep, h]

theorem dispatchStep_head {now : Nat} {s : State} {r : PendingRequest} {rest : List PendingRequest}
    (hf : s.inFlight = none) (hq : s.queue = r :: rest) (hs : spacingPassed now s = true) :
    dispatchStep now s = act (.write r.outgoingFrame)
      { s with queue := rest, inFlight := some r, lastSendTime := some (wrapTime s.cfg now) } := by
  simp only [dispatchStep, hf, hq, hs, if_true]

theorem timeoutStep_after_dispatch (now : Nat) (s : State) (r : PendingRequest) (rest : List PendingRequest) :
    timeoutStep now (act (.write r.outgoingFrame)
      { s with queue := rest, inFlight := some r, lastSendTime := some (wrapTime s.cfg now) }) =
    act (.write r.outgoingFrame)
      { s with queue := rest, inFlight := some r, lastSendTime := some (wrapTime s.cfg now) } := by
  simp [timeoutStep, windowClosed, elapsed_wrapTime_self]

/-- The two steps of TICK together: a dispatch, a timeout, or nothing; never two of them. -/
theorem tickSteps_cases (now : Nat) (s : State) :
    (∃ r rest, s.inFlight = none ∧ s.queue = r :: rest ∧ spacingPassed now s = true ∧
      timeoutStep now (dispatchStep now s) = act (.write r.outgoingFrame)
        { s with queue := rest, inFlight := some r, lastSendTime := some (wrapTime s.cfg now) }) ∨
    (∃ r t, s.inFlight = some r ∧ s.lastSendTime = some t ∧ windowClosed now t s = true ∧
      timeoutStep now (dispatchStep now s) =
        emit (.error .timeout (.address r.address)) { s with inFlight := none }) ∨
    timeoutStep now (dispatchStep now s) = s := by
  obtain ⟨r, rest, hf, hq, hs, h⟩ | h := dispatchStep_cases now s
  · exact .inl ⟨r, rest, hf, hq, hs, by rw [h, timeoutStep_after_dispatch]⟩
  · rw [h]; exact .inr (timeoutStep_cases now s)

/-- A resolution that answers a next state: inFlight is none, at most one event was emitted, and the buffer is
empty or, after a foreign frame that does not clear it, as it was. -/
theorem resolve_cases {r : PendingRequest} {s s' : State} (h : resolve r s = .next s') :
    (∃ e, s' = clearBuffer (emit e { s with inFlight := none })) ∨
    s' = clearBuffer { s with inFlight := none } ∨ s' = { s with inFlight := none } := by
  simp only [resolve] at h
  split at h
  · cases h
  · injection h with h; exact .inl ⟨_, h.symm⟩
  · injection h with h
    split at h
    · exact .inr (.inl h.symm)
    · exact .inr (.inr h.symm)
  · split at h
    · cases h
    · injection h with h; exact .inr (.inl h.symm)
    · injection h with h; exact .inl ⟨_, h.symm⟩

theorem receive_cases {chunk : Bytes} {s s' : State} (h : receive chunk s = .next s') :
    s.mode = .running ∧ overflowsBuffer chunk s = false ∧
    (s' = { s with receiveBuffer := s.receiveBuffer ++ chunk } ∨
      ∃ r, s.inFlight = some r ∧
        responseComplete r { s with receiveBuffer := s.receiveBuffer ++ chunk } = true ∧
        resolve r { s with receiveBuffer := s.receiveBuffer ++ chunk } = .next s') := by
  obtain ⟨hm, h⟩ := requireRunning_next h
  cases ho : overflowsBuffer chunk s with
  | true => simp [ho] at h
  | false =>
    refine ⟨hm, rfl, ?_⟩
    simp only [ho, Bool.false_eq_true, if_false] at h
    split at h
    next => injection h with h; exact .inl h.symm
    next r hf =>
      split at h
      next hc => exact .inr ⟨r, hf, hc, h⟩
      next => injection h with h; exact .inl h.symm

/-- RX with nothing in flight. -/
theorem receive_idle {chunk : Bytes} {s : State} (hm : s.mode = .running)
    (ho : overflowsBuffer chunk s = false) (hf : s.inFlight = none) :
    receive chunk s = .next { s with receiveBuffer := s.receiveBuffer ++ chunk } := by
  simp only [receive, requireRunning_running hm, ho, Bool.false_eq_true, if_false]
  split
  next => rfl
  next r h => rw [hf] at h; cases h

/-- RX below the expected length. -/
theorem receive_short {chunk : Bytes} {s : State} {r : PendingRequest} (hm : s.mode = .running)
    (ho : overflowsBuffer chunk s = false) (hf : s.inFlight = some r)
    (hl : (s.receiveBuffer ++ chunk).length < r.expectedResponseLength) :
    receive chunk s = .next { s with receiveBuffer := s.receiveBuffer ++ chunk } := by
  simp only [receive, requireRunning_running hm, ho, Bool.false_eq_true, if_false]
  split
  next => rfl
  next r' h =>
    rw [hf] at h; cases h
    exact if_neg (by simp only [responseComplete, decide_eq_true_eq]; omega)

/-- RX that reaches the expected length. -/
theorem receive_resolves {chunk : Bytes} {s : State} {r : PendingRequest} (hm : s.mode = .running)
    (ho : overflowsBuffer chunk s = false) (hf : s.inFlight = some r)
    (hl : r.expectedResponseLength ≤ (s.receiveBuffer ++ chunk).length) :
    receive chunk s = resolve r { s with receiveBuffer := s.receiveBuffer ++ chunk } := by
  simp only [receive, requireRunning_running hm, ho, Bool.false_eq_true, if_false]
  split
  next h => rw [hf] at h; cases h
  next r' h =>
    rw [hf] at h; cases h
    exact if_pos (by simpa only [responseComplete, decide_eq_true_eq] using hl)

/-! ### exec -/

/-- What an operation that enqueues does when it answers a next state: the clock takes its time, and then a
bad address is raised, or a request with a valid frame for this slave meets ENQUEUE. -/
theorem enqueueRequest_cases {a : AddrOperand} {now : Nat} {request} {s s' : State}
    (h : enqueueRequest a now request s = .next s') :
    s.mode = .running ∧ timeAccepted now s = true ∧
    (s' = raise .invalidAddress { s with clock := now } ∨
      ∃ address, addr a = some address ∧
        s' = enqueue (request { s with clock := now } address) { s with clock := now }) := by
  obtain ⟨hm, h⟩ := requireRunning_next h
  obtain ⟨ht, h⟩ := atTime_next h
  refine ⟨hm, ht, ?_⟩
  split at h
  next => injection h with h; exact .inl h.symm
  next address ha => injection h with h; exact .inr ⟨address, ha, h.symm⟩

theorem requestFrame_cases {frame : Bytes} {request} {s s' : State}
    (h : requestFrame frame request s = .next s') :
    s.mode = .running ∧ (request s).outgoingFrame = frame ∧ s' = enqueue (request s) s := by
  obtain ⟨hm, h⟩ := requireRunning_next h
  split at h
  next hf => injection h with h; exact ⟨hm, hf, h.symm⟩
  next => cases h

/-- What a descriptor built by one of the four requests has whatever its operands (R182 to R185). -/
structure BuiltRequest (s : State) (d : PendingRequest) : Prop where
  frame : ∃ fc parts, d.outgoingFrame = frameEncode s.slaveId fc parts
  length : 5 ≤ d.expectedResponseLength

theorem requestRdcoil_built (s : State) (a n : U16) (now : Nat) : BuiltRequest s (requestRdcoil s a n now) :=
  ⟨⟨_, _, rfl⟩, by simp [requestRdcoil]⟩
theorem requestRdreg_built (s : State) (a n : U16) (now : Nat) : BuiltRequest s (requestRdreg s a n now) :=
  ⟨⟨_, _, rfl⟩, by simp only [requestRdreg]; omega⟩
theorem requestWrcoil_built (s : State) (a : U16) (v : Bool) (now : Nat) :
    BuiltRequest s (requestWrcoil s a v now) := ⟨⟨_, _, rfl⟩, by simp [requestWrcoil]⟩
theorem requestWrreg_built (s : State) (a : U16) (ws : List U16) (now : Nat) :
    BuiltRequest s (requestWrreg s a ws now) := ⟨⟨_, _, rfl⟩, by simp [requestWrreg]⟩

/-- An operation that enqueues, answering a next state: a bad address is raised or a built request meets
ENQUEUE, at the operation's time. -/
theorem exec_enqueue_cases {i : Instr} {s s' : State} (hk : i.kind = .enqueue) (h : exec i s = .next s') :
    s.mode = .running ∧ ∃ now, timeAccepted now s = true ∧
    (s' = raise .invalidAddress { s with clock := now } ∨
      ∃ d, BuiltRequest { s with clock := now } d ∧ s' = enqueue d { s with clock := now }) := by
  have hclock : timeAccepted s.clock s = true := by simp [timeAccepted]
  cases i with
  | enqRdcoil a n now =>
    obtain ⟨hm, ht, h | ⟨address, -, h⟩⟩ := enqueueRequest_cases h
    · exact ⟨hm, now, ht, .inl h⟩
    · exact ⟨hm, now, ht, .inr ⟨_, requestRdcoil_built _ _ _ _, h⟩⟩
  | enqRdreg a n now =>
    obtain ⟨hm, ht, h | ⟨address, -, h⟩⟩ := enqueueRequest_cases h
    · exact ⟨hm, now, ht, .inl h⟩
    · exact ⟨hm, now, ht, .inr ⟨_, requestRdreg_built _ _ _ _, h⟩⟩
  | enqWrcoil a v now =>
    obtain ⟨hm, ht, h | ⟨address, -, h⟩⟩ := enqueueRequest_cases h
    · exact ⟨hm, now, ht, .inl h⟩
    · exact ⟨hm, now, ht, .inr ⟨_, requestWrcoil_built _ _ _ _, h⟩⟩
  | enqWrreg a ws now =>
    simp only [exec, execEnqWrreg] at h
    obtain ⟨-, h⟩ := requireRunning_next h
    split at h
    · cases h
    · obtain ⟨hm, ht, h | ⟨address, -, h⟩⟩ := enqueueRequest_cases h
      · exact ⟨hm, now, ht, .inl h⟩
      · exact ⟨hm, now, ht, .inr ⟨_, requestWrreg_built _ _ _ _, h⟩⟩
  | rdcoilReq sid a n crc =>
    simp only [exec, execRdcoilReq] at h
    obtain ⟨hm, -, h⟩ := requestFrame_cases h
    exact ⟨hm, s.clock, hclock, .inr ⟨_, requestRdcoil_built _ _ _ _, h⟩⟩
  | rdregReq sid a n crc =>
    simp only [exec, execRdregReq] at h
    obtain ⟨hm, -, h⟩ := requestFrame_cases h
    exact ⟨hm, s.clock, hclock, .inr ⟨_, requestRdreg_built _ _ _ _, h⟩⟩
  | wrcoilReq sid a v crc =>
    simp only [exec, execWrcoilReq] at h
    obtain ⟨hm, -, h⟩ := requestFrame_cases h
    exact ⟨hm, s.clock, hclock, .inr ⟨_, requestWrcoil_built _ _ _ _, h⟩⟩
  | wrregReq sid a f ws crc =>
    simp only [exec, execWrregReq] at h
    obtain ⟨-, h⟩ := requireRunning_next h
    split at h
    · cases h
    · obtain ⟨hm, -, h⟩ := requestFrame_cases h
      exact ⟨hm, s.clock, hclock, .inr ⟨_, requestWrreg_built _ _ _ _, h⟩⟩
  | rdcoilRsp | rdregRsp | wrcoilRsp | wrregRsp | unknownRsp | tick | rx | trOpened | trClosed | trError
  | reset | crc16 | crcAppend | crcCheck | frameEncode | frameDecode | f2w | w2f => cases hk

/-- A pure function, answering a next state: one result is recorded, which is no raised error and no `ok`. -/
theorem exec_function_cases {i : Instr} {s s' : State} (hk : i.kind = .function) (h : exec i s = .next s') :
    s.mode = .running ∧ ∃ r, s' = answer r s ∧ r ≠ .ok ∧ ∀ k, r ≠ .raised k := by
  cases i with
  | crc16 | crcAppend | frameEncode | f2w =>
    simp only [exec, execCrc16, execCrcAppend, execFrameEncode, execF2w] at h
    obtain ⟨hm, h⟩ := requireRunning_next h
    injection h with h; exact ⟨hm, _, h.symm, by simp, by simp⟩
  | crcCheck | frameDecode | w2f =>
    simp only [exec, execCrcCheck, execFrameDecode, execW2f] at h
    obtain ⟨hm, h⟩ := requireRunning_next h
    split at h
    · injection h with h; exact ⟨hm, _, h.symm, by simp, by simp⟩
    · cases h
  | rdcoilReq | rdregReq | wrcoilReq | wrregReq | rdcoilRsp | rdregRsp | wrcoilRsp | wrregRsp | unknownRsp
  | enqRdcoil | enqRdreg | enqWrcoil | enqWrreg | tick | rx | trOpened | trClosed | trError
  | reset => cases hk

theorem exec_tick_cases {i : Instr} {s s' : State} (hk : i.kind = .tick) (h : exec i s = .next s') :
    s.mode = .running ∧ ∃ now, i = .tick now ∧ timeAccepted now s = true ∧
      s' = timeoutStep now (dispatchStep now { s with clock := now }) := by
  cases i with
  | tick now =>
    simp only [exec, execTick] at h
    obtain ⟨hm, h⟩ := requireRunning_next h
    obtain ⟨ht, h⟩ := atTime_next h
    injection h with h
    exact ⟨hm, now, rfl, ht, h.symm⟩
  | rdcoilReq | rdregReq | wrcoilReq | wrregReq | rdcoilRsp | rdregRsp | wrcoilRsp | wrregRsp | unknownRsp
  | enqRdcoil | enqRdreg | enqWrcoil | enqWrreg | rx | trOpened | trClosed | trError
  | reset | crc16 | crcAppend | crcCheck | frameEncode | frameDecode | f2w | w2f => cases hk

theorem exec_receive_cases {i : Instr} {s s' : State} (hk : i.kind = .receive) (h : exec i s = .next s') :
    ∃ chunk, receive chunk s = .next s' := by
  cases i with
  | rdcoilRsp | rdregRsp | wrcoilRsp | wrregRsp | unknownRsp | rx => exact ⟨_, h⟩
  | rdcoilReq | rdregReq | wrcoilReq | wrregReq | enqRdcoil | enqRdreg | enqWrcoil | enqWrreg | tick
  | trOpened | trClosed | trError | reset | crc16 | crcAppend | crcCheck | frameEncode | frameDecode | f2w
  | w2f => cases hk

theorem exec_transport_cases {i : Instr} {s s' : State} (hk : i.kind = .transport) (h : exec i s = .next s') :
    s.mode = .running ∧ (s' = s ∨ ∃ e, s' = emit e s) := by
  cases i with
  | trOpened =>
    simp only [exec, execTrOpened] at h
    obtain ⟨hm, h⟩ := requireRunning_next h
    injection h with h; exact ⟨hm, .inr ⟨_, h.symm⟩⟩
  | trClosed =>
    simp only [exec, execTrClosed] at h
    obtain ⟨hm, h⟩ := requireRunning_next h
    injection h with h; exact ⟨hm, .inl h.symm⟩
  | trError cause =>
    simp only [exec, execTrError] at h
    obtain ⟨hm, h⟩ := requireRunning_next h
    injection h with h; exact ⟨hm, .inr ⟨_, h.symm⟩⟩
  | rdcoilReq | rdregReq | wrcoilReq | wrregReq | rdcoilRsp | rdregRsp | wrcoilRsp | wrregRsp | unknownRsp
  | enqRdcoil | enqRdreg | enqWrcoil | enqWrreg | tick | rx | reset | crc16 | crcAppend | crcCheck
  | frameEncode | frameDecode | f2w | w2f => cases hk

theorem exec_reset_cases {i : Instr} {s s' : State} (hk : i.kind = .reset) (h : exec i s = .next s') :
    ∃ id, i = .reset id ∧
    ((validSlaveId id = true ∧
        s' = act .opened { emptied s with mode := .running, slaveId := BitVec.ofInt 8 id }) ∨
      (validSlaveId id = false ∧ s' = raise .invalidIdentifier
        { emptied s with
          mode := .refused, slaveId := Config.freeSlaveId s.freeCount, freeCount := s.freeCount + 1 })) := by
  cases i with
  | reset id =>
    refine ⟨id, rfl, ?_⟩
    simp only [exec, execReset] at h
    split at h
    next hv => injection h with h; exact .inl ⟨hv, h.symm⟩
    next hv => injection h with h; exact .inr ⟨by simpa using hv, h.symm⟩
  | rdcoilReq | rdregReq | wrcoilReq | wrregReq | rdcoilRsp | rdregRsp | wrcoilRsp | wrregRsp | unknownRsp
  | enqRdcoil | enqRdreg | enqWrcoil | enqWrreg | tick | rx | trOpened | trClosed | trError | crc16
  | crcAppend | crcCheck | frameEncode | frameDecode | f2w | w2f => cases hk

end Sys2Proof.Machine
end

