-- ==== Sys2Proof/Laws/PerInstr.lean ====
section
/-! SUPPORT. The family LeadByte: the first byte of an encoding names its space or its host operation. -/

namespace Sys2Proof.Laws

/-- The byte an encoded operation begins with: the tag of its wire space, or its selector (R86, R99). -/
def LeadByte.Statement (i : Instr) : Prop :=
  (encode i).head? = some (match i.space with
    | .wireRequest => requestTag
    | .wireResponse => responseTag
    | .hostOp => i.selector)

theorem LeadByte.rdcoilReq x0 x1 x2 x3 : LeadByte.Statement (.rdcoilReq x0 x1 x2 x3) := rfl
theorem LeadByte.rdregReq x0 x1 x2 x3 : LeadByte.Statement (.rdregReq x0 x1 x2 x3) := rfl
theorem LeadByte.wrcoilReq x0 x1 x2 x3 : LeadByte.Statement (.wrcoilReq x0 x1 x2 x3) := rfl
theorem LeadByte.wrregReq x0 x1 x2 x3 x4 : LeadByte.Statement (.wrregReq x0 x1 x2 x3 x4) := rfl
theorem LeadByte.rdcoilRsp x0 x1 x2 x3 : LeadByte.Statement (.rdcoilRsp x0 x1 x2 x3) := rfl
theorem LeadByte.rdregRsp x0 x1 x2 x3 : LeadByte.Statement (.rdregRsp x0 x1 x2 x3) := rfl
theorem LeadByte.wrcoilRsp x0 x1 x2 x3 x4 x5 : LeadByte.Statement (.wrcoilRsp x0 x1 x2 x3 x4 x5) := rfl
theorem LeadByte.wrregRsp x0 x1 x2 x3 x4 x5 : LeadByte.Statement (.wrregRsp x0 x1 x2 x3 x4 x5) := rfl
theorem LeadByte.unknownRsp x0 x1 x2 x3 : LeadByte.Statement (.unknownRsp x0 x1 x2 x3) := rfl
theorem LeadByte.enqRdcoil x0 x1 x2 : LeadByte.Statement (.enqRdcoil x0 x1 x2) := rfl
theorem LeadByte.enqRdreg x0 x1 x2 : LeadByte.Statement (.enqRdreg x0 x1 x2) := rfl
theorem LeadByte.enqWrcoil x0 x1 x2 : LeadByte.Statement (.enqWrcoil x0 x1 x2) := rfl
theorem LeadByte.enqWrreg x0 x1 x2 : LeadByte.Statement (.enqWrreg x0 x1 x2) := rfl
theorem LeadByte.tick x0 : LeadByte.Statement (.tick x0) := rfl
theorem LeadByte.rx x0 : LeadByte.Statement (.rx x0) := rfl
theorem LeadByte.trOpened : LeadByte.Statement .trOpened := rfl
theorem LeadByte.trClosed : LeadByte.Statement .trClosed := rfl
theorem LeadByte.trError x0 : LeadByte.Statement (.trError x0) := rfl
theorem LeadByte.reset x0 : LeadByte.Statement (.reset x0) := rfl
theorem LeadByte.crc16 x0 : LeadByte.Statement (.crc16 x0) := rfl
theorem LeadByte.crcAppend x0 : LeadByte.Statement (.crcAppend x0) := rfl
theorem LeadByte.crcCheck x0 : LeadByte.Statement (.crcCheck x0) := rfl
theorem LeadByte.frameEncode x0 x1 x2 : LeadByte.Statement (.frameEncode x0 x1 x2) := rfl
theorem LeadByte.frameDecode x0 : LeadByte.Statement (.frameDecode x0) := rfl
theorem LeadByte.f2w x0 : LeadByte.Statement (.f2w x0) := rfl
theorem LeadByte.w2f x0 : LeadByte.Statement (.w2f x0) := rfl

end Sys2Proof.Laws
end

