-- ==== Sys2Proof/Tests/Slice0.lean ====
section
/-! SUPPORT. The model's own tests. Expected values come from spec/: the vectors V<n> of 95_test_vectors.md, the
layouts of 30_encoding.md, and hand calculation from the rules. Then one witness for each obligation that has
hypotheses: a concrete state and operands that meet them all. -/

namespace Sys2Proof.Tests

set_option Elab.async false

open Host Sys2Proof.Machine

/-! ### WellFormed refuses an ill-formed term for each of its checks -/

theorem test_wellFormed_wrreg_127 :
    (Instr.wrregReq 1 0 127 (List.replicate 127 0xFFFF) 0).wellFormed = true := by decide +kernel
theorem test_illFormed_wrreg_128 :
    (Instr.wrregReq 1 0 128 (List.replicate 128 0xFFFF) 0).wellFormed = false := by decide +kernel
theorem test_wellFormed_unknown_06 : (Instr.unknownRsp 1 0x06 [] 0).wellFormed = true := by decide
theorem test_illFormed_unknown_01 : (Instr.unknownRsp 1 0x01 [] 0).wellFormed = false := by decide
theorem test_illFormed_unknown_03 : (Instr.unknownRsp 1 0x03 [] 0).wellFormed = false := by decide
theorem test_illFormed_unknown_05 : (Instr.unknownRsp 1 0x05 [] 0).wellFormed = false := by decide
theorem test_illFormed_unknown_10 : (Instr.unknownRsp 1 0x10 [] 0).wellFormed = false := by decide

/-! ### Decoding: wire frames written out from R82 to R85 (bytes of the vectors named) -/

/-- What the decoder reads, and how many bytes it leaves. -/
def read (bs : Bytes) : Option (Instr × Nat) :=
  match decode bs with
  | .ok (i, rest) => some (i, rest.length)
  | .error _ => none

/-- The name the decoder rejects bytes by. -/
def rejected (bs : Bytes) : Option DecodeError :=
  match decode bs with
  | .ok _ => none
  | .error e => some e

/-- A request frame of `n` bytes in the trace (log entry 9; the length byte is twice the length). -/
def req (f : Bytes) : Bytes := [0xD0, BitVec.ofNat 8 (2 * f.length)] ++ f
/-- A response frame in the trace. -/
def rsp (f : Bytes) : Bytes := [0xD1, BitVec.ofNat 8 (2 * f.length)] ++ f

/-- V84. -/
theorem test_decode_rdcoilReq : read (req [0x01, 0x01, 0x00, 0x13, 0x00, 0x10, 0xCC, 0x03]) =
    some (.rdcoilReq 0x01 0x0013 0x0010 0x03CC, 0) := by decide +kernel
/-- V80. -/
theorem test_decode_rdregReq : read (req [0x01, 0x03, 0x0B, 0x00, 0x00, 0x02, 0xC6, 0x2F]) =
    some (.rdregReq 0x01 0x0B00 2 0x2FC6, 0) := by decide +kernel
/-- V86. -/
theorem test_decode_wrcoilReq_true : read (req [0x01, 0x05, 0x05, 0x00, 0xFF, 0x00, 0x8C, 0xF6]) =
    some (.wrcoilReq 0x01 0x0500 true 0xF68C, 0) := by decide +kernel
/-- V87. -/
theorem test_decode_wrcoilReq_false : read (req [0x01, 0x05, 0x05, 0x00, 0x00, 0x00, 0xCD, 0x06]) =
    some (.wrcoilReq 0x01 0x0500 false 0x06CD, 0) := by decide +kernel
/-- V89. -/
theorem test_decode_wrregReq :
    read (req [0x01, 0x10, 0x0B, 0x00, 0x00, 0x02, 0x04, 0x41, 0x20, 0x00, 0x00, 0x95, 0x69]) =
      some (.wrregReq 0x01 0x0B00 2 [0x4120, 0x0000] 0x6995, 0) := by decide +kernel
/-- V135. -/
theorem test_decode_rdcoilRsp : read (rsp [0x01, 0x01, 0x02, 0x05, 0x00, 0xBA, 0xAC]) =
    some (.rdcoilRsp 0x01 0x02 [0x05, 0x00] 0xACBA, 0) := by decide +kernel
/-- V120. -/
theorem test_decode_rdregRsp : read (rsp [0x01, 0x03, 0x04, 0x41, 0x20, 0x00, 0x00, 0xEF, 0xC5]) =
    some (.rdregRsp 0x01 0x04 [0x41, 0x20, 0x00, 0x00] 0xC5EF, 0) := by decide +kernel
/-- V130. -/
theorem test_decode_wrcoilRsp : read (rsp [0x01, 0x05, 0x12, 0x34, 0x00, 0x00, 0x89, 0x7C]) =
    some (.wrcoilRsp 0x01 0x12 0x34 0x00 0x00 0x7C89, 0) := by decide +kernel
/-- V131. -/
theorem test_decode_wrregRsp : read (rsp [0x01, 0x10, 0x0B, 0x00, 0x00, 0x02, 0x43, 0xEC]) =
    some (.wrregRsp 0x01 0x0B 0x00 0x00 0x02 0xEC43, 0) := by decide +kernel
/-- V141. -/
theorem test_decode_unknownRsp : read (rsp [0x01, 0x83, 0x02, 0xC0, 0xF1]) =
    some (.unknownRsp 0x01 0x83 [0x02] 0xF1C0, 0) := by decide +kernel

/-! ### Decoding: host operations, by the selectors of R99 (operand layouts: log entry 8) -/

theorem test_decode_enqRdcoil : read [0x01, 0x00, 0x26, 0x00, 0x01, 0x00] =
    some (.enqRdcoil (.int 0x13) 1 0, 0) := by decide +kernel
theorem test_decode_enqRdreg : read [0x03, 0x01, 0x16, 0x00, 0x00, 0x02, 0x64, 0xAA] =
    some (.enqRdreg (.pair 0x0B 0x00) 2 100, 1) := by decide +kernel
theorem test_decode_enqWrcoil : read [0x05, 0x02, 0x01, 0xAC, 0x02] =
    some (.enqWrcoil .other true 300, 0) := by decide +kernel
theorem test_decode_enqWrreg : read [0x10, 0x00, 0x01, 0x02, 0x41, 0x20, 0x00, 0x00, 0x00] =
    some (.enqWrreg (.int (-1)) [0x4120, 0x0000] 0, 0) := by decide +kernel
theorem test_decode_tick : read [0xF0, 0xE4, 0x00] = none ∧ read [0xF0, 0xE4, 0x01] = some (.tick 228, 0) := by
  decide +kernel
theorem test_decode_rx : read [0xF1, 0x04, 0x01, 0x03, 0xF2] = some (.rx [0x01, 0x03], 1) := by decide +kernel
theorem test_decode_trOpened : read [0xF2] = some (.trOpened, 0) := by decide +kernel
theorem test_decode_trClosed : read [0xF3] = some (.trClosed, 0) := by decide +kernel
theorem test_decode_trError : read [0xF4, 0x02, 0x63] = some (.trError [0x63], 0) := by decide +kernel
theorem test_decode_reset : read [0xFF, 0x02] = some (.reset 1, 0) := by decide +kernel
theorem test_decode_crc16 : read [0xE0, 0x02, 0xFF] = some (.crc16 [0xFF], 0) := by decide +kernel
theorem test_decode_crcAppend : read [0xE1, 0x00] = some (.crcAppend [], 0) := by decide +kernel
theorem test_decode_crcCheck : read [0xE2, 0x00, 0xFF, 0xFF] = some (.crcCheck [0xFF, 0xFF], 0) := by
  decide +kernel
theorem test_decode_frameEncode : read [0xE3, 0x01, 0x03, 0x02, 0x04, 0x0B, 0x00, 0x04, 0x00, 0x02] =
    some (.frameEncode 0x01 0x03 [[0x0B, 0x00], [0x00, 0x02]], 0) := by decide +kernel
theorem test_decode_frameDecode : read [0xE4, 0x00, 0x01, 0x03, 0x40, 0x21] =
    some (.frameDecode [0x01, 0x03, 0x40, 0x21], 0) := by decide +kernel
theorem test_decode_f2w : read [0xE5, 0x41, 0x20, 0x00, 0x00] = some (.f2w 0x41200000, 0) := by decide +kernel
theorem test_decode_w2f : read [0xE6, 0x01, 0x41, 0x20, 0x00] = some (.w2f [0x41, 0x20, 0x00], 0) := by
  decide +kernel

/-! ### Rejections, by name -/

theorem test_reject_selector : rejected [0x02] = some (.unknownSelector 0x02) := by decide +kernel
theorem test_reject_end : rejected [] = some .endOfBytes ∧ rejected [0xF1, 0x04, 0x01] = some .endOfBytes := by
  decide +kernel
theorem test_reject_operand_tag : rejected [0x05, 0x03] = some (.badOperandTag 0x03) := by decide +kernel
theorem test_reject_padded : rejected [0xF0, 0x80, 0x00] = some .paddedNumber := by decide +kernel
theorem test_reject_negative : rejected [0xF1, 0x01] = some .negativeLength := by decide +kernel
theorem test_reject_request_code : rejected (req [0x01, 0x06, 0x00, 0x01, 0x00, 0x03, 0x98, 0x0B]) =
    some (.unknownRequestCode 0x06) := by decide +kernel
theorem test_reject_coil_value : rejected (req [0x01, 0x05, 0x05, 0x00, 0xFF, 0x01, 0x00, 0x00]) =
    some (.badCoilValue 0xFF 0x01) := by decide +kernel
theorem test_reject_byteCount : rejected (req [0x01, 0x10, 0x0B, 0x00, 0x00, 0x01, 0x01, 0x41, 0x00, 0x00]) =
    some (.badByteCount 0x01) := by decide +kernel
theorem test_reject_length : rejected (req [0x01, 0x03, 0x0B, 0x00, 0x00, 0x02, 0xC6]) = some .badFrameLength ∧
    rejected (rsp [0x01, 0x05, 0x0B, 0x00]) = some .badFrameLength := by decide +kernel

/-! ### Single operations -/

/-- The next state of an outcome. -/
def nextOf (o : Outcome State Fault Refusal) : Option State :=
  match o with
  | .next s => some s
  | .fault _ => none
  | .refused _ => none

/-- The refusal of an outcome. -/
def refusalOf (o : Outcome State Fault Refusal) : Option Refusal :=
  match o with
  | .next _ => none
  | .fault _ => none
  | .refused r => some r

/-- What an operation put out. -/
def outs (i : Instr) (s : State) : Option (List Output) :=
  (nextOf (exec i s)).map fun t => (t.history.drop s.history.length).map (·.output)

/-- V80's descriptor. -/
def r80 : PendingRequest :=
  { address := 0x0B00, objectKind := .register, operation := .read
    outgoingFrame := [0x01, 0x03, 0x0B, 0x00, 0x00, 0x02, 0xC6, 0x2F], expectedResponseLength := 9
    enqueuedAt := 0 }
/-- V84's descriptor. -/
def r84 : PendingRequest :=
  { address := 0x0013, objectKind := .coil, operation := .read
    outgoingFrame := [0x01, 0x01, 0x00, 0x13, 0x00, 0x01, 0x0C, 0x0F], expectedResponseLength := 6
    enqueuedAt := 0 }
/-- V86's descriptor. -/
def r86 : PendingRequest :=
  { address := 0x0500, objectKind := .coil, operation := .write
    outgoingFrame := [0x01, 0x05, 0x05, 0x00, 0xFF, 0x00, 0x8C, 0xF6], expectedResponseLength := 8
    enqueuedAt := 0 }
/-- V89's descriptor. -/
def r89 : PendingRequest :=
  { address := 0x0B00, objectKind := .register, operation := .write
    outgoingFrame := [0x01, 0x10, 0x0B, 0x00, 0x00, 0x02, 0x04, 0x41, 0x20, 0x00, 0x00, 0x95, 0x69]
    expectedResponseLength := 8, enqueuedAt := 0 }

/-- After RESET 1, with a queue. -/
def queued (q : List PendingRequest) : State := { State.reset with queue := q }
/-- After RESET 1, with `r` in flight since 100, a queue and received bytes. -/
def waiting (r : PendingRequest) (q : List PendingRequest) (rx : Bytes) : State :=
  { State.reset with queue := q, inFlight := some r, lastSendTime := some 100, receiveBuffer := rx, clock := 100 }
/-- After RESET 1, nothing in flight, the last frame written at 100. -/
def spaced (q : List PendingRequest) : State :=
  { State.reset with queue := q, lastSendTime := some 100, clock := 100 }
/-- Refused. -/
def refusedState : State := { State.reset with mode := .refused }

theorem test_V80_V81 :
    (nextOf (exec (.enqRdreg (.int 0x0B00) 2 0) State.reset)).map (·.queue) = some [r80] ∧
    (nextOf (exec (.enqRdreg (.int 0) 0 0) (queued [r80]))).map (·.queue) =
      some [r80, { address := 0, objectKind := .register, operation := .read
                   outgoingFrame := [0x01, 0x03, 0x00, 0x00, 0x00, 0x00, 0x45, 0xCA]
                   expectedResponseLength := 5, enqueuedAt := 0 }] := by decide +kernel
theorem test_V83 :
    (nextOf (exec (.enqRdreg (.pair 0xFF 0xFF) 0xFFFF 0) { State.reset with slaveId := 0xFF })).map
        (fun t => t.queue.map fun d => (d.outgoingFrame, d.expectedResponseLength)) =
      some [([0xFF, 0x03, 0xFF, 0xFF, 0xFF, 0xFF, 0x51, 0x80], 131075)] := by decide +kernel
theorem test_V84_V85 :
    (nextOf (exec (.enqRdcoil (.int 0x13) 1 0) State.reset)).map (·.queue) = some [r84] ∧
    (nextOf (exec (.enqRdcoil (.int 0x13) 16 0) State.reset)).map
        (fun t => t.queue.map fun d => (d.outgoingFrame, d.expectedResponseLength)) =
      some [([0x01, 0x01, 0x00, 0x13, 0x00, 0x10, 0xCC, 0x03], 6)] := by decide +kernel
theorem test_V86_V88 :
    (nextOf (exec (.enqWrcoil (.int 0x0500) true 0) State.reset)).map (·.queue) = some [r86] ∧
    (nextOf (exec (.enqWrcoil (.int 0x0501) false 0) State.reset)).map
        (fun t => t.queue.map (·.outgoingFrame)) =
      some [[0x01, 0x05, 0x05, 0x01, 0x00, 0x00, 0x9C, 0xC6]] := by decide +kernel
theorem test_V89 :
    (nextOf (exec (.enqWrreg (.int 0x0B00) [0x4120, 0x0000] 0) State.reset)).map (·.queue) = some [r89] ∧
    (nextOf (exec (.enqWrreg (.int 0x0B00) [0x4120, 0x0000] 0)
        { State.reset with cfg := { Config.default with wrregField16 := .byteCount } })).map
        (fun t => t.queue.map (·.outgoingFrame)) =
      some [[0x01, 0x10, 0x0B, 0x00, 0x00, 0x04, 0x04, 0x41, 0x20, 0x00, 0x00, 0x95, 0x0F]] := by decide +kernel
/-- V50: the longest payload. -/
theorem test_V50 : (payloadWrreg .registerCount 0 (List.replicate 127 0xFFFF)).take 6 =
    [0x00, 0x00, 0x00, 0x7F, 0xFE, 0xFF] := by decide +kernel
theorem test_V92 : outs (.enqRdreg (.int 0x10000) 1 0) State.reset =
    some [.result (.raised .invalidAddress)] := by decide +kernel
theorem test_V93_V94 :
    outs (.enqRdreg (.int 0x0B00) 2 0)
        { queued [r80] with cfg := { Config.default with queueDepth := some 1 } } =
      some [.result (.raised .queueFull)] ∧
    outs (.enqRdreg (.int 0x0B00) 2 100)
        { waiting r80 [] [] with cfg := { Config.default with queueDepth := some 1 } } =
      some [.result .ok] := by decide +kernel
theorem test_V95_V111_V145 :
    refusalOf (exec (.enqRdreg (.int 0x0B00) 2 0) refusedState) = some .notRunning ∧
    refusalOf (exec (.tick 100) refusedState) = some .notRunning ∧
    refusalOf (exec (.rx []) refusedState) = some .notRunning := by decide +kernel

/-- U10, U2: the pure functions are operations, refused like the others (log entry 12). -/
theorem test_functions_refused :
    refusalOf (exec (.crc16 []) refusedState) = some .notRunning ∧
    refusalOf (exec (.crcAppend []) refusedState) = some .notRunning ∧
    refusalOf (exec (.crcCheck []) refusedState) = some .notRunning ∧
    refusalOf (exec (.frameEncode 0x01 0x03 []) refusedState) = some .notRunning ∧
    refusalOf (exec (.frameDecode []) refusedState) = some .notRunning ∧
    refusalOf (exec (.f2w 0) refusedState) = some .notRunning ∧
    refusalOf (exec (.w2f []) refusedState) = some .notRunning := by decide +kernel
/-- U11, with a finite W_T as well. -/
theorem test_clock_refused :
    refusalOf (exec (.tick 50) (waiting r80 [] [])) = some .clockWentBack ∧
    refusalOf (exec (.tick 50)
      { waiting r80 [] [] with cfg := { Config.default with timeBits := some 32 } }) =
        some .clockWentBack := by decide +kernel

theorem test_V102 :
    (nextOf (exec (.tick 100) (queued [r80, r86]))).map
        (fun t => (t.queue, t.inFlight, t.lastSendTime)) = some ([r86], some r80, some 100) ∧
    outs (.tick 100) (queued [r80, r86]) =
      some [.action (.write [0x01, 0x03, 0x0B, 0x00, 0x00, 0x02, 0xC6, 0x2F])] := by
  decide +kernel
theorem test_V103_V104 :
    outs (.tick 349) (spaced [r86]) = some [] ∧
    outs (.tick 350) (spaced [r86]) =
      some [.action (.write [0x01, 0x05, 0x05, 0x00, 0xFF, 0x00, 0x8C, 0xF6])] := by decide +kernel
theorem test_V106_V107 :
    outs (.tick 5100) (waiting r80 [r86] []) = some [] ∧
    (nextOf (exec (.tick 5101) (waiting r80 [r86] [0x01, 0x03]))).map
        (fun t => (t.inFlight, t.queue, t.lastSendTime, t.receiveBuffer)) =
      some (none, [r86], some 100, [0x01, 0x03]) ∧
    outs (.tick 5101) (waiting r80 [r86] []) = some [.event (.error .timeout (.address 0x0B00))] := by decide +kernel

theorem test_V120_V128 :
    (nextOf (exec (.rx [0x01, 0x03, 0x04, 0x41, 0x20, 0x00, 0x00, 0xEF, 0xC5]) (waiting r80 [] []))).map
        (fun t => (events t, t.inFlight, t.receiveBuffer)) =
      some ([.registerRead 0x0B00 [0x41, 0x20, 0x00, 0x00]], none, []) ∧
    (nextOf (exec (.rx [0x00]) (spaced []))).map (·.receiveBuffer) = some [0x00] := by decide +kernel
theorem test_V122_V126 :
    (nextOf (exec (.rx [0x01, 0x03, 0x04, 0x41, 0x20, 0x00, 0x00, 0xEF, 0xC5, 0x01]) (waiting r80 [] []))).map
        (fun t => (events t, t.inFlight, t.receiveBuffer)) =
      some ([.error .checksumError .none], none, []) := by decide +kernel
theorem test_V123_V124 :
    (nextOf (exec (.rx [0x02, 0x03, 0x04, 0x41, 0x20, 0x00, 0x00, 0xDC, 0xC5]) (waiting r80 [] []))).map
        (fun t => (events t, t.inFlight, t.receiveBuffer)) = some ([], none, []) ∧
    (nextOf (exec (.rx [0x02, 0x03, 0x04, 0x41, 0x20, 0x00, 0x00, 0xDC, 0xC5])
        { waiting r80 [] [] with cfg := { Config.default with clearRxOnForeign := false } })).map
        (fun t => (events t, t.inFlight, t.receiveBuffer)) =
      some ([], none, [0x02, 0x03, 0x04, 0x41, 0x20, 0x00, 0x00, 0xDC, 0xC5]) := by decide +kernel
theorem test_V132_V134 :
    outs (.rx [0x01, 0x01, 0x01, 0x01, 0x90, 0x48]) (waiting r84 [] []) =
      some [.event (.coilRead 0x0013 (.single true))] ∧
    outs (.rx [0x01, 0x01, 0x01, 0xFF, 0x11, 0xC8]) (waiting r84 [] []) =
      some [.event (.coilRead 0x0013 (.single false))] := by decide +kernel
theorem test_V135_rdcoilRsp :
    outs (.rdcoilRsp 0x01 0x02 [0x05, 0x00] 0xACBA) (waiting r84 [] []) =
      some [.event (.coilRead 0x0013 (.sequence [false, false]))] := by decide +kernel
theorem test_V143_V144_rdregRsp :
    outs (.rdregRsp 0x01 0x06 [0x41, 0x20, 0x00, 0x00] 0x0596) (waiting r80 [] []) =
      some [.event (.registerRead 0x0B00 [0x41, 0x20, 0x00, 0x00])] ∧
    outs (.rdregRsp 0x01 0x01 [0x41, 0x20, 0x00, 0x00] 0xC523) (waiting r80 [] []) =
      some [.event (.registerRead 0x0B00 [0x41])] := by decide +kernel
theorem test_V130_wrcoilRsp :
    outs (.wrcoilRsp 0x01 0x12 0x34 0x00 0x00 0x7C89) (waiting r86 [] []) =
      some [.event (.coilWritten 0x0500)] := by decide +kernel
theorem test_V131_wrregRsp :
    outs (.wrregRsp 0x01 0x0B 0x00 0x00 0x02 0xEC43) (waiting r89 [] []) =
      some [.event (.registerWritten 0x0B00)] := by decide +kernel
theorem test_V138_unknownRsp :
    (nextOf (exec (.unknownRsp 0x01 0x06 [0x00, 0x01, 0x00, 0x03] 0x0B98) (waiting r86 [] []))).map
      (fun t => (events t, t.inFlight, t.receiveBuffer)) = some ([], none, []) := by decide +kernel
theorem test_V142 :
    outs (.rx []) (waiting r86 [] [0x01, 0x05, 0x05, 0x00, 0xFF, 0x00, 0x8C, 0xF6]) =
      some [.event (.coilWritten 0x0500)] := by decide +kernel
theorem test_V58_in_rx :
    refusalOf (exec (.rx [0x01, 0x01, 0x01, 0xE0, 0x50])
      (waiting { r80 with expectedResponseLength := 5 } [] [])) = some .coilByteMissing := by decide +kernel

/-- The request rows: the frames of V84, V80, V86, V89 (log entry 10). -/
theorem test_request_rows :
    (nextOf (exec (.rdcoilReq 0x01 0x0013 1 0x0F0C) State.reset)).map (·.queue) = some [r84] ∧
    (nextOf (exec (.rdregReq 0x01 0x0B00 2 0x2FC6) State.reset)).map (·.queue) = some [r80] ∧
    (nextOf (exec (.wrcoilReq 0x01 0x0500 true 0xF68C) State.reset)).map (·.queue) = some [r86] ∧
    (nextOf (exec (.wrregReq 0x01 0x0B00 2 [0x4120, 0x0000] 0x6995) State.reset)).map (·.queue) =
      some [r89] := by decide +kernel
theorem test_foreign_request_rows :
    refusalOf (exec (.rdregReq 0x02 0x0B00 2 0x1CC6) State.reset) = some .foreignRequestFrame ∧
    refusalOf (exec (.rdregReq 0x01 0x0B00 2 0x2FC7) State.reset) = some .foreignRequestFrame := by
  decide +kernel

theorem test_V161_V163 :
    (nextOf (exec (.reset 255) (waiting r80 [r86] [0xAA]))).map
        (fun t => (t.slaveId, t.queue, t.inFlight, t.lastSendTime)) = some (0xFF, [], none, none) ∧
    (nextOf (exec (.reset 255) (waiting r80 [r86] [0xAA]))).map (fun t => (t.mode, t.receiveBuffer)) =
      some (.running, []) ∧
    outs (.reset 255) (waiting r80 [r86] [0xAA]) = some [.action .opened] := by decide +kernel
theorem test_V162 :
    (nextOf (exec (.reset 0) State.reset)).map (·.mode) = some .refused ∧
    (nextOf (exec (.reset (-1)) State.reset)).map (·.mode) = some .refused ∧
    outs (.reset 256) State.reset = some [.result (.raised .invalidIdentifier)] := by decide +kernel
theorem test_V164_V165_V166 :
    outs .trOpened State.reset = some [.event .ready] ∧
    outs (.trError [0x63]) (waiting r80 [] []) = some [.event (.error .transportError (.cause [0x63]))] ∧
    nextOf (exec .trClosed State.reset) = some State.reset := by decide +kernel

theorem test_V8_crc16 :
    outs (.crc16 [0x31, 0x32, 0x33, 0x34, 0x35, 0x36, 0x37, 0x38, 0x39]) State.reset =
      some [.result (.word 0x4B37)] := by decide +kernel
theorem test_V9_crcAppend :
    outs (.crcAppend [0x01, 0x03, 0x00, 0x00, 0x00, 0x02]) State.reset =
      some [.result (.bytes [0x01, 0x03, 0x00, 0x00, 0x00, 0x02, 0xC4, 0x0B])] := by decide +kernel
theorem test_V12_V14_crcCheck :
    outs (.crcCheck [0x01, 0x03, 0x04, 0x41, 0x20, 0x00, 0x00, 0xEF, 0xC5]) State.reset =
      some [.result (.bool true)] ∧
    outs (.crcCheck [0x01, 0x03, 0x04, 0x41, 0x20, 0x00, 0x00, 0xC5, 0xEF]) State.reset =
      some [.result (.bool false)] := by decide +kernel
theorem test_V31_V32_frameEncode :
    outs (.frameEncode 0x01 0x03 []) State.reset = some [.result (.bytes [0x01, 0x03, 0x40, 0x21])] ∧
    outs (.frameEncode 0xFF 0x03 [[0xFF, 0xFF], [0xFF, 0xFF]]) State.reset =
      some [.result (.bytes [0xFF, 0x03, 0xFF, 0xFF, 0xFF, 0xFF, 0x51, 0x80])] := by decide +kernel
theorem test_V36_V37_frameDecode :
    outs (.frameDecode [0x02, 0x03, 0x04, 0x41, 0x20, 0x00, 0x00, 0xDC, 0xC4]) State.reset =
      some [.result (.decoded .checksumError)] ∧
    outs (.frameDecode [0x01, 0x83, 0x02, 0xC0, 0xF1]) State.reset =
      some [.result (.decoded (.ok 0x01 0x83 [0x02]))] := by decide +kernel
theorem test_V73_f2w : outs (.f2w 0x40533333) State.reset = some [.result (.words 0x4053 0x3333)] := by
  decide +kernel
theorem test_V75_V76_w2f :
    outs (.w2f [0x00, 0x00, 0x41, 0x20]) State.reset = some [.result (.pattern 0x00004120)] ∧
    refusalOf (exec (.w2f [0x41, 0x20, 0x00]) State.reset) = some .notFourBytes := by decide +kernel

/-- R22 (f): a table word is fetched as the very next operation. -/
theorem test_fetch_word :
    (nextOf (step (State.reset.withFetchWord 8 0xF2))).map events = some [.ready] ∧
    (nextOf (step (State.reset.withFetchWord 8 0x03))).map (fun t => t.queue.map (·.outgoingFrame)) =
      some [[0x01, 0x03, 0x00, 0x00, 0x00, 0x00, 0x45, 0xCA]] ∧
    (nextOf (step (State.reset.withFetchWord 64 0x2FC60200000B0301))).map (·.queue) = some [r80] := by
  decide +kernel

/-! ### Witnesses: hypotheses of the obligations, met by concrete states and operands -/

theorem exists_next {o : Outcome State Fault Refusal} (h : (nextOf o).isSome = true) : ∃ t, o = .next t := by
  cases o with
  | next t => exact ⟨t, rfl⟩
  | fault f => cases h
  | refused r => cases h

/-- A finite queue that is full. -/
def fullState : State := { queued [r80] with cfg := { Config.default with queueDepth := some 1 } }
/-- V120's response. -/
def good : Bytes := [0x01, 0x03, 0x04, 0x41, 0x20, 0x00, 0x00, 0xEF, 0xC5]
/-- V35's frame, for slave 2. -/
def foreign : Bytes := [0x02, 0x03, 0x04, 0x41, 0x20, 0x00, 0x00, 0xDC, 0xC5]
/-- Time values of 16 bits. -/
def cfg16 : Config := { Config.default with timeBits := some 16 }

theorem witness_DecodeEncodeRoundTrip :
    WellFormed (.wrregReq 0xFF 0xFFFF 127 (List.replicate 127 0xFFFF) 0) ∧ WellFormed (.wrregReq 0 0 0 [] 0) ∧
    WellFormed (.unknownRsp 0 0x00 [] 0) ∧ WellFormed (.unknownRsp 0 0x11 [] 0) := by decide +kernel
theorem witness_DecodeReadsOnlyEncodings :
    read [0xF0, 0x00, 0xAA] = some (.tick 0, 1) ∧ read (req r80.outgoingFrame) =
      some (.rdregReq 0x01 0x0B00 2 0x2FC6, 0) ∧ read (rsp [0x01, 0x83, 0x00, 0x00]) =
      some (.unknownRsp 0x01 0x83 [] 0, 0) := by decide +kernel
theorem witness_WireFrameLayouts :
    (List.replicate 127 (0xFFFF : U16)).length ≤ 127 ∧ ([] : List U16).length ≤ 127 ∧
    isNamedFunctionCode 0x00 = false ∧ isNamedFunctionCode 0x02 = false ∧ isNamedFunctionCode 0x83 = false := by
  decide +kernel
theorem witness_StepRunsDecodedInstruction :
    decode ({ State.reset with trace := [0xF0, 0x00, 0xF2] } : State).trace = .ok (.tick 0, [0xF2]) ∧
    State.reset.trace = [] ∧
    ({ State.reset with trace := [0x02] } : State).trace ≠ [] ∧
    decode ({ State.reset with trace := [0x02] } : State).trace = .error (.unknownSelector 0x02) :=
  ⟨rfl, rfl, by decide, rfl⟩
/-- Crc16RunsTheBitSerialAlgorithm, CrcAppendCompletes, CrcCheckCompletes, EncodeCompletes, DecodeCompletes,
FloatCodecCompletes, ShortInputsRefused. -/
theorem witness_functions_running : State.reset.mode = .running := by decide
theorem witness_ZeroResidueIffValid :
    2 ≤ ([0xFF, 0xFF] : Bytes).length ∧ crcCheck [0xFF, 0xFF] = some true ∧
    2 ≤ ([0x00, 0x01] : Bytes).length ∧ crcCheck [0x00, 0x01] = some false := by decide +kernel
theorem witness_TrailingZerosKeepValid : crcCheck good = some true ∧ crcCheck [0xFF, 0xFF] = some true ∧
    (0x01 : Byte) ≠ 0x00#8 ∧ (0xFF : Byte) ≠ 0x00#8 := by decide +kernel
theorem witness_SingleBitErrorDetected :
    0 < (frameEncode 0x01 0x03 []).length ∧ 3 < (frameEncode 0x01 0x03 []).length ∧ 0 < 8 ∧ 7 < 8 := by
  decide +kernel
theorem witness_FloatRoundTrip : ([0x40, 0x53, 0x33, 0x33] : Bytes).length = 4 := by decide
theorem witness_ShortInputsRefused :
    ([0x01] : Bytes).length < 2 ∧ ([0x01, 0x03, 0x21] : Bytes).length < 4 ∧
    ([0x41, 0x20, 0x00] : Bytes).length ≠ 4 ∧ ([0, 0, 0, 0, 0] : Bytes).length ≠ 4 := by decide
theorem witness_AddressNormaliser :
    addr (.int 0) = some 0 ∧ addr (.int 0xFFFF) = some 0xFFFF ∧ addr (.int (-1)) = none ∧
    addr (.int 0x10000) = none ∧ addr (.pair 0xFF 0xFF) = some 0xFFFF ∧ addr (.pair 0x0B 0x00) = some 0x0B00 ∧
    addr (.pair 0x100 0) = none ∧ addr (.pair 0 (-1)) = none ∧ addr .other = none := by decide +kernel

/-- The three clauses of EnqRdcoilAppends, EnqRdregAppends and EnqWrcoilAppends, at the bounds of an address. -/
theorem witness_Enq_clauses :
    State.reset.mode = .running ∧ timeAccepted 0 State.reset = true ∧ queueFull State.reset = false ∧
    addr (.int 0) = some 0 ∧ addr (.pair 0xFF 0xFF) = some 0xFFFF ∧ addr (.int (-1)) = none ∧
    fullState.mode = .running ∧ timeAccepted 0 fullState = true ∧ queueFull fullState = true ∧
    refusedState.mode = .refused := by decide +kernel
/-- EnqWrregAppends: 0 and 127 words, each form of the 16-bit field. -/
theorem witness_EnqWrregAppends :
    ([] : List U16).length ≤ 127 ∧ (List.replicate 127 (0 : U16)).length ≤ 127 ∧
    State.reset.cfg.wrregField16 = .registerCount ∧
    ({ Config.default with wrregField16 := .byteCount } : Config).wrregField16 = .byteCount ∧
    ({ Config.default with wrregField16 := .table (Vector.replicate 128 7) } : Config).wrregField16 =
      .table (Vector.replicate 128 7) ∧
    timeAccepted 0 { State.reset with cfg := { Config.default with wrregField16 := .byteCount } } = true ∧
    refusedState.mode = .refused := by
  decide +kernel
/-- InvalidAddressIsRaised, an address that is bad, on a full queue and on one that is not. -/
theorem witness_InvalidAddressIsRaised :
    fullState.mode = .running ∧ timeAccepted 0 fullState = true ∧ State.reset.mode = .running ∧
    timeAccepted 0 State.reset = true ∧ addr (.int 0x10000) = none ∧ addr .other = none ∧
    (List.replicate 127 (0 : U16)).length ≤ 127 := by decide +kernel
/-- RefusedOperands: one below the clock, and 128 words. -/
theorem witness_RefusedOperands :
    (spaced []).mode = .running ∧ 99 < (spaced []).clock ∧
    (List.replicate 127 (0 : U16)).length ≤ 127 ∧ 127 < (List.replicate 128 (0 : U16)).length := by decide +kernel
/-- RequestRowsEnqueue, WRREG.REQ at 0 and 127 words, and a full queue. -/
theorem witness_RequestRowsEnqueue :
    State.reset.mode = .running ∧ queueFull State.reset = false ∧ ([] : List U16).length ≤ 127 ∧
    (List.replicate 127 (0 : U16)).length ≤ 127 ∧
    (127 : U16) = field16 State.reset.cfg.wrregField16 (List.replicate 127 (0 : U16)).length ∧
    fullState.mode = .running ∧ queueFull fullState = true ∧
    (0 : U16) = field16 fullState.cfg.wrregField16 ([] : List U16).length := by decide +kernel
/-- ForeignRequestRowsRefused: another slave, and this slave with a wrong checksum. -/
theorem witness_ForeignRequestRowsRefused :
    (Instr.rdregReq 0x02 0x0B00 2 0x1CC6).kind = .enqueue ∧ WellFormed (.rdregReq 0x02 0x0B00 2 0x1CC6) ∧
    frameBytes (.rdregReq 0x02 0x0B00 2 0x1CC6) = some [0x02, 0x03, 0x0B, 0x00, 0x00, 0x02, 0xC6, 0x1C] ∧
    State.reset.mode = .running ∧
    ([0x02, 0x03, 0x0B, 0x00, 0x00, 0x02, 0xC6, 0x1C] : Bytes).head? ≠ some State.reset.slaveId ∧
    frameBytes (.rdregReq 0x01 0x0B00 2 0x2FC7) = some [0x01, 0x03, 0x0B, 0x00, 0x00, 0x02, 0xC7, 0x2F] ∧
    crcCheck [0x01, 0x03, 0x0B, 0x00, 0x00, 0x02, 0xC7, 0x2F] = some false := by decide +kernel
/-- ForeignRequestRowsRefused, the 16-bit field: each form of the parameter, at 127 words and at none. -/
theorem witness_ForeignRequestRowsRefused_field16 :
    State.reset.cfg.wrregField16 = .registerCount ∧
    (254 : U16).toNat ≠ (List.replicate 127 (0 : U16)).length ∧
    ({ Config.default with wrregField16 := .byteCount } : Config).wrregField16 = .byteCount ∧
    (127 : U16).toNat ≠ 2 * (List.replicate 127 (0 : U16)).length ∧
    (Vector.replicate 128 (7 : U16))[([] : List U16).length]? ≠ some 0 ∧
    (List.replicate 127 (0 : U16)).length ≤ 127 := by decide +kernel

/-- TickDispatches: nothing sent yet, and exactly T_GAP elapsed. -/
theorem witness_TickDispatches :
    (queued [r80]).mode = .running ∧ timeAccepted 0 (queued [r80]) = true ∧ (queued [r80]).inFlight = none ∧
    (queued [r80]).queue = r80 :: [] ∧ (queued [r80]).lastSendTime = none ∧
    (spaced [r86]).mode = .running ∧ timeAccepted 350 (spaced [r86]) = true ∧ (spaced [r86]).inFlight = none ∧
    (spaced [r86]).queue = r86 :: [] ∧ (spaced [r86]).lastSendTime = some 100 ∧
    (spaced [r86]).cfg.tGap = elapsed (spaced [r86]).cfg 350 100 := by decide +kernel
/-- TickTimesOut: one millisecond past T_TIMEOUT. -/
theorem witness_TickTimesOut :
    (waiting r80 [r86] []).mode = .running ∧ timeAccepted 5101 (waiting r80 [r86] []) = true ∧
    (waiting r80 [r86] []).inFlight = some r80 ∧ (waiting r80 [r86] []).lastSendTime = some 100 ∧
    elapsed (waiting r80 [r86] []).cfg 5101 100 = 5001 := by decide +kernel
/-- TickOtherwiseIdle: an empty queue, T_GAP less one, exactly T_TIMEOUT, and no time stored. -/
theorem witness_TickOtherwiseIdle :
    State.reset.mode = .running ∧ State.reset.inFlight = none ∧ State.reset.queue = [] ∧
    (spaced [r86]).inFlight = none ∧ (spaced [r86]).lastSendTime = some 100 ∧
    elapsed (spaced [r86]).cfg 349 100 = 249 ∧ (spaced [r86]).cfg.tGap = 250 ∧
    timeAccepted 349 (spaced [r86]) = true ∧
    (waiting r80 [r86] []).inFlight = some r80 ∧ (waiting r80 [r86] []).lastSendTime = some 100 ∧
    elapsed (waiting r80 [r86] []).cfg 5100 100 = 5000 ∧ timeAccepted 5100 (waiting r80 [r86] []) = true ∧
    ({ queued [] with inFlight := some r80 } : State).lastSendTime = none := by decide +kernel
/-- ElapsedTime: unbounded time, and 16 bits just below one turn. -/
theorem witness_ElapsedTime :
    Config.default.timeBits = none ∧ cfg16.timeBits = some 16 ∧ 100 ≤ 65635 ∧ 65635 < 100 + 2 ^ 16 ∧
    elapsed cfg16 65635 (wrapTime cfg16 100) = 65535 ∧ elapsed cfg16 65540 65534 = 6 := by decide +kernel
theorem witness_TimeoutThenNextDispatch :
    (waiting r80 [r86] []).mode = .running ∧ (waiting r80 [r86] []).cfg.timeBits = none ∧
    (waiting r80 [r86] []).clock ≤ 5101 ∧ 5101 ≤ 5101 ∧ (waiting r80 [r86] []).inFlight = some r80 ∧
    (waiting r80 [r86] []).lastSendTime = some 100 ∧ (waiting r80 [r86] []).queue = r86 :: [] ∧
    100 + 5000 < 5101 ∧ 100 + (waiting r80 [r86] []).cfg.tGap ≤ 5101 := by decide +kernel

/-- RxAppendsAndWaits: nothing in flight, and one byte short. -/
theorem witness_RxAppendsAndWaits :
    State.reset.mode = .running ∧ overflowsBuffer [0xAA] State.reset = false ∧ State.reset.inFlight = none ∧
    (waiting r80 [] []).mode = .running ∧ overflowsBuffer (good.take 8) (waiting r80 [] []) = false ∧
    (waiting r80 [] []).inFlight = some r80 ∧
    ((waiting r80 [] []).receiveBuffer ++ good.take 8).length = 8 ∧ r80.expectedResponseLength = 9 := by
  decide +kernel
theorem witness_RxChecksumError :
    (waiting r80 [] [0x00]).mode = .running ∧ overflowsBuffer good (waiting r80 [] [0x00]) = false ∧
    (waiting r80 [] [0x00]).inFlight = some r80 ∧
    r80.expectedResponseLength ≤ ((waiting r80 [] [0x00]).receiveBuffer ++ good).length ∧
    4 ≤ ((waiting r80 [] [0x00]).receiveBuffer ++ good).length ∧
    crcCheck ((waiting r80 [] [0x00]).receiveBuffer ++ good) = some false := by decide +kernel
/-- RxForeignFrame, for both values of the parameter. -/
theorem witness_RxForeignFrame :
    (waiting r80 [] []).mode = .running ∧ overflowsBuffer foreign (waiting r80 [] []) = false ∧
    (waiting r80 [] []).inFlight = some r80 ∧
    r80.expectedResponseLength ≤ ((waiting r80 [] []).receiveBuffer ++ foreign).length ∧
    4 ≤ ((waiting r80 [] []).receiveBuffer ++ foreign).length ∧
    crcCheck ((waiting r80 [] []).receiveBuffer ++ foreign) = some true ∧
    ((waiting r80 [] []).receiveBuffer ++ foreign).head? = some 0x02 ∧
    (0x02 : Byte) ≠ (waiting r80 [] []).slaveId ∧ (waiting r80 [] []).cfg.clearRxOnForeign = true ∧
    overflowsBuffer foreign
      { waiting r80 [] [] with cfg := { Config.default with clearRxOnForeign := false } } = false := by
  decide +kernel
/-- RxCoilRead: one byte declared, and two declared. -/
theorem witness_RxCoilRead :
    (waiting r84 [] [0x01]).mode = .running ∧
    overflowsBuffer [0x01, 0x01, 0x01, 0x90, 0x48] (waiting r84 [] [0x01]) = false ∧
    (waiting r84 [] [0x01]).inFlight = some r84 ∧
    (waiting r84 [] [0x01]).receiveBuffer ++ [0x01, 0x01, 0x01, 0x90, 0x48] =
      crcAppend ([(waiting r84 [] [0x01]).slaveId, 0x01, 0x01] ++ [0x01]) ∧
    r84.expectedResponseLength ≤
      ((waiting r84 [] [0x01]).receiveBuffer ++ [0x01, 0x01, 0x01, 0x90, 0x48]).length ∧
    (waiting r84 [] []).receiveBuffer ++ [0x01, 0x01, 0x02, 0x05, 0x00, 0xBA, 0xAC] =
      crcAppend ([(waiting r84 [] []).slaveId, 0x01, 0x02] ++ [0x05, 0x00]) := by decide +kernel
theorem witness_RxRegisterRead :
    (waiting r80 [] (good.take 8)).mode = .running ∧
    overflowsBuffer [0xC5] (waiting r80 [] (good.take 8)) = false ∧
    (waiting r80 [] (good.take 8)).inFlight = some r80 ∧
    (waiting r80 [] (good.take 8)).receiveBuffer ++ [0xC5] =
      crcAppend ([(waiting r80 [] (good.take 8)).slaveId, 0x03, 0x04] ++ [0x41, 0x20, 0x00, 0x00]) ∧
    r80.expectedResponseLength ≤ ((waiting r80 [] (good.take 8)).receiveBuffer ++ [0xC5]).length := by
  decide +kernel
/-- RxWriteAcknowledged: both function codes. -/
theorem witness_RxWriteAcknowledged :
    (waiting r86 [] []).mode = .running ∧ overflowsBuffer r86.outgoingFrame (waiting r86 [] []) = false ∧
    (waiting r86 [] []).inFlight = some r86 ∧
    (waiting r86 [] []).receiveBuffer ++ r86.outgoingFrame =
      crcAppend ([(waiting r86 [] []).slaveId, 0x05] ++ [0x05, 0x00, 0xFF, 0x00]) ∧
    r86.expectedResponseLength ≤ ((waiting r86 [] []).receiveBuffer ++ r86.outgoingFrame).length ∧
    (waiting r89 [] []).receiveBuffer ++ [0x01, 0x10, 0x0B, 0x00, 0x00, 0x02, 0x43, 0xEC] =
      crcAppend ([(waiting r89 [] []).slaveId, 0x10] ++ [0x0B, 0x00, 0x00, 0x02]) := by decide +kernel
theorem witness_RxUnknownCode :
    (waiting r86 [] []).mode = .running ∧
    overflowsBuffer [0x01, 0x06, 0x00, 0x01, 0x00, 0x03, 0x98, 0x0B] (waiting r86 [] []) = false ∧
    (waiting r86 [] []).inFlight = some r86 ∧
    (waiting r86 [] []).receiveBuffer ++ [0x01, 0x06, 0x00, 0x01, 0x00, 0x03, 0x98, 0x0B] =
      crcAppend ([(waiting r86 [] []).slaveId, 0x06] ++ [0x00, 0x01, 0x00, 0x03]) ∧
    r86.expectedResponseLength ≤
      ((waiting r86 [] []).receiveBuffer ++ [0x01, 0x06, 0x00, 0x01, 0x00, 0x03, 0x98, 0x0B]).length ∧
    (0x06 : Byte) ≠ 0x01#8 ∧ (0x06 : Byte) ≠ 0x03#8 ∧ (0x06 : Byte) ≠ 0x05#8 ∧ (0x06 : Byte) ≠ 0x10#8 := by
  decide +kernel
/-- RxRefusals: one byte past RXCAP, and a single coil without its byte. -/
theorem witness_RxRefusals :
    ({ Config.default with rxCapacity := some 2 } : Config).rxCapacity = some 2 ∧
    2 < (State.reset.receiveBuffer ++ [0x01, 0x02, 0x03]).length ∧
    (waiting { r80 with expectedResponseLength := 5 } [] []).mode = .running ∧
    overflowsBuffer [0x01, 0x01, 0x01, 0xE0, 0x50] (waiting { r80 with expectedResponseLength := 5 } [] []) =
      false ∧
    ({ r80 with expectedResponseLength := 5 } : PendingRequest).expectedResponseLength ≤ 5 ∧
    (waiting { r80 with expectedResponseLength := 5 } [] []).receiveBuffer ++ [0x01, 0x01, 0x01, 0xE0, 0x50] =
      crcAppend [(waiting { r80 with expectedResponseLength := 5 } [] []).slaveId, 0x01, 0x01] := by
  decide +kernel
/-- ChunkingDoesNotMatter: a request in flight whose response lacks one byte after the first chunk. -/
theorem witness_ChunkingDoesNotMatter :
    ∀ r, (waiting r80 [] []).inFlight = some r →
      ((waiting r80 [] []).receiveBuffer ++ good.take 8).length < r.expectedResponseLength := by
  intro r h; cases h; decide +kernel
theorem witness_ResponseRowsAreReceived :
    (Instr.wrregRsp 0x01 0x0B 0x00 0x00 0x02 0xEC43).kind = .receive ∧
    frameBytes (.wrregRsp 0x01 0x0B 0x00 0x00 0x02 0xEC43) =
      some [0x01, 0x10, 0x0B, 0x00, 0x00, 0x02, 0x43, 0xEC] := by decide +kernel
/-- ResponseRowsComplete: each clause at exactly the expected length. -/
theorem witness_ResponseRowsComplete :
    (waiting r84 [] []).mode = .running ∧ (waiting r84 [] []).cfg.rxCapacity = none ∧
    (waiting r84 [] []).receiveBuffer = [] ∧ (waiting r84 [] []).inFlight = some r84 ∧
    r84.expectedResponseLength ≤ 6 + ([] : Bytes).length ∧
    (waiting r80 [] []).receiveBuffer = [] ∧ (waiting r80 [] []).inFlight = some r80 ∧
    r80.expectedResponseLength ≤ 5 + ([0x41, 0x20, 0x00, 0x00] : Bytes).length ∧
    (waiting r86 [] []).receiveBuffer = [] ∧ (waiting r86 [] []).inFlight = some r86 ∧
    r86.expectedResponseLength ≤ 8 ∧
    isNamedFunctionCode 0x06 = false ∧ r86.expectedResponseLength ≤ 4 + ([0, 1, 0, 3] : Bytes).length := by
  decide +kernel

theorem witness_TransportNotifications : State.reset.mode = .running := by decide
theorem witness_ResetStarts : (1 : Int) ≤ 1 ∧ (1 : Int) ≤ 255 ∧ (255 : Int) ≤ 255 := by decide
theorem witness_ResetRefusesBadIdentifier : (0 : Int) < 1 ∧ (255 : Int) < 256 := by decide
theorem witness_ResetStateValues :
    ({ refusedState with history := [] } : State).cfg = Config.default ∧ refusedState.clock = 0 ∧
    refusedState.trace = [] ∧ refusedState.freeCount = 0 := by decide +kernel
theorem witness_RefusedModeRefusesOperations :
    refusedState.mode = .refused ∧ (Instr.tick 0).kind ≠ .reset ∧ (Instr.crc16 []).kind ≠ .reset ∧
    (Instr.rdregReq 0 0 0 0).kind ≠ .reset ∧ (Instr.rx []).kind ≠ .reset ∧ Instr.trClosed.kind ≠ .reset := by
  decide +kernel
/-- EachElementHasItsWriters: an operation of each kind that answers a next state. -/
theorem witness_EachElementHasItsWriters :
    (∃ t, exec (.rx good) (waiting r80 [] []) = .next t) ∧ (∃ t, exec (.tick 100) (queued [r80]) = .next t) ∧
    (∃ t, exec (.enqRdreg (.int 0x0B00) 2 0) State.reset = .next t) ∧
    (∃ t, exec (.crc16 []) State.reset = .next t) ∧ (∃ t, exec (.reset 1) State.reset = .next t) ∧
    (∃ t, exec .trOpened State.reset = .next t) := by
  refine ⟨?_, ?_, ?_, ?_, ?_, ?_⟩ <;> exact exists_next (by decide +kernel)
/-- OneEventOneWritePerOperation: an operation that emits an event. -/
theorem witness_OneEventOneWritePerOperation :
    exec .trOpened State.reset = .next (emit .ready State.reset) ∧
    events (emit .ready State.reset) ≠ events State.reset := ⟨rfl, by decide +kernel⟩
theorem witness_SingleInFlight :
    ∃ t, exec (.tick 100) (queued [r80]) = .next t ∧ writes t ≠ writes (queued [r80]) :=
  ⟨_, rfl, by decide +kernel⟩
/-- FifoService: a run that accepts one request and dispatches another. -/
theorem witness_FifoService :
    (∀ i ∈ ([.enqRdreg (.int 0x0B00) 2 0, .tick 100, .rx [0xAA]] : List Instr), i.kind ≠ .reset) ∧
    ∃ t, runList [.enqRdreg (.int 0x0B00) 2 0, .tick 100, .rx [0xAA]] (queued [r86]) = .next t :=
  ⟨by decide, exists_next (by decide +kernel)⟩

/-- A busy state: V80's request was dispatched at 100 and V86's waits, with one operation presented. -/
def busy (trace : Bytes) : State :=
  { waiting r80 [r86] [] with
    history := [{ time := 0, output := .action .opened },
      { time := 100, output := .action (.write r80.outgoingFrame) }]
    trace := trace }

theorem valid_r80 : ValidRequest 1 r80 := ⟨rfl, by decide +kernel, by decide⟩
theorem valid_r86 : ValidRequest 1 r86 := ⟨rfl, by decide +kernel, by decide⟩

theorem inv_busy (trace : Bytes) : Inv (busy trace) where
  slaveIdLegal _ := (by decide : (1 : Byte) ≠ 0)
  refusedEmpty h := by cases h
  queueValid d h := by
    have e : d = r86 := by simpa [busy, waiting] using h
    rw [e]; exact valid_r86
  inFlightValid r h := by cases h; exact valid_r80
  lastSend := rfl
  awaited r h := by cases h; rfl
  queueBound n h := by cases h
  bufferBound n h := by cases h

theorem spaced_busy (trace : Bytes) : Spaced (busy trace) := by
  have e : writesSinceReset (busy trace) = [(100, r80.outgoingFrame)] := rfl
  constructor
  · rw [e]; exact List.pairwise_singleton _ _
  · rw [e]; intro w h
    have e : w = (100, r80.outgoingFrame) := by simpa using h
    rw [e]; exact Nat.le_refl 100

/-- InvariantKeptByStep: a TICK that times the request out. -/
theorem witness_InvariantKeptByStep :
    Inv (busy [0xF0, 0xED, 0x27]) ∧ ∃ t, step (busy [0xF0, 0xED, 0x27]) = .next t ∧ t.inFlight = none :=
  ⟨inv_busy _, _, rfl, by decide +kernel⟩
/-- SpacingKeptByStep: the same step. -/
theorem witness_SpacingKeptByStep :
    Inv (busy [0xF0, 0xED, 0x27]) ∧ Spaced (busy [0xF0, 0xED, 0x27]) ∧
    ∃ t, step (busy [0xF0, 0xED, 0x27]) = .next t :=
  ⟨inv_busy _, spaced_busy _, _, rfl⟩
/-- OrderOfTickAndRxMatters: V167 and V168. -/
theorem witness_OrderOfTickAndRxMatters :
    (waiting r80 [] (good.take 8)).mode = .running ∧ timeAccepted 5200 (waiting r80 [] (good.take 8)) = true ∧
    overflowsBuffer [0xC5] (waiting r80 [] (good.take 8)) = false ∧
    (waiting r80 [] (good.take 8)).inFlight = some r80 ∧
    (waiting r80 [] (good.take 8)).lastSendTime = some 100 ∧
    5000 < elapsed (waiting r80 [] (good.take 8)).cfg 5200 100 ∧
    (waiting r80 [] (good.take 8)).receiveBuffer ++ [0xC5] =
      crcAppend ([(waiting r80 [] (good.take 8)).slaveId, 0x03, 0x04] ++ [0x41, 0x20, 0x00, 0x00]) ∧
    r80.expectedResponseLength ≤ ((waiting r80 [] (good.take 8)).receiveBuffer ++ [0xC5]).length := by
  decide +kernel
/-- ConditionsAdmit: QDEPTH and RXCAP unbounded, and finite at their bounds. -/
theorem witness_ConditionsAdmit :
    State.reset.cfg.queueDepth = none ∧ fullState.cfg.queueDepth = some 1 ∧ fullState.queue.length = 1 ∧
    State.reset.cfg.rxCapacity = none ∧ ({ Config.default with rxCapacity := some 2 } : Config).rxCapacity = some 2 ∧
    overflowsBuffer [0x01, 0x02] { State.reset with cfg := { Config.default with rxCapacity := some 2 } } = false ∧
    overflowsBuffer [0x01, 0x02, 0x03] { State.reset with cfg := { Config.default with rxCapacity := some 2 } } =
      true := by decide +kernel

theorem exists_next_queue {o : Outcome State Fault Refusal} {q : List PendingRequest}
    (h : ((nextOf o).map fun t => decide (t.queue ≠ q)) = some true) : ∃ t, o = .next t ∧ t.queue ≠ q := by
  cases o with
  | next t => exact ⟨t, rfl, of_decide_eq_true (Option.some.inj h)⟩
  | fault f => cases h
  | refused r => cases h

/-- ExpectedResponseLengths: each clause, ReadRegister of 0 and of 65535 registers. -/
theorem witness_ExpectedResponseLengths :
    (∃ t, exec (.enqRdcoil (.int 0x13) 16 0) State.reset = .next t ∧ t.queue ≠ State.reset.queue) ∧
    (∃ t, exec (.enqRdreg (.int 0) 0 0) State.reset = .next t ∧ t.queue ≠ State.reset.queue) ∧
    (∃ t, exec (.enqRdreg (.int 0) 0xFFFF 0) State.reset = .next t ∧ t.queue ≠ State.reset.queue) ∧
    (∃ t, exec (.enqWrcoil (.int 0) true 0) State.reset = .next t ∧ t.queue ≠ State.reset.queue) ∧
    (∃ t, exec (.enqWrreg (.int 0) [] 0) State.reset = .next t ∧ t.queue ≠ State.reset.queue) := by
  refine ⟨?_, ?_, ?_, ?_, ?_⟩ <;> exact exists_next_queue (by decide +kernel)
/-- RequestsFixedAtEnqueue: a TICK that dispatches, and an enqueue operation. -/
theorem witness_RequestsFixedAtEnqueue :
    (∃ t, exec (.tick 100) (queued [r80]) = .next t) ∧ (Instr.tick 100).kind ≠ .reset ∧
    (∃ t, exec (.enqRdreg (.int 0x0B00) 2 0) (queued [r86]) = .next t) ∧
    (Instr.enqRdreg (.int 0x0B00) 2 0).kind ≠ .reset :=
  ⟨exists_next (by decide +kernel), by decide, exists_next (by decide +kernel), by decide⟩

end Sys2Proof.Tests
end

section
/-! The time values of 00_scope.md R12 (elapsed time and time as the block holds it), and the operands that are
refused (D3, D8). -/

namespace Sys2Proof.Machine

open Host

/-! ### Time values with unbounded and with finite W_T -/

theorem wrapTime_unbounded {c : Config} (h : c.timeBits = none) (t : Nat) : wrapTime c t = t := by
  simp only [wrapTime, h]

theorem elapsed_unbounded {c : Config} (h : c.timeBits = none) (now t : Nat) : elapsed c now t = now - t := by
  simp only [elapsed, h]

section
variable {c : Config} {w : Nat} (h : c.timeBits = some w) (now t : Nat)
include h

theorem wrapTime_finite : wrapTime c t = t % 2 ^ w := by
  simp only [wrapTime, h]

theorem elapsed_finite : elapsed c now t = (now % 2 ^ w + (2 ^ w - t % 2 ^ w)) % 2 ^ w := by
  simp only [elapsed, h]

theorem wrapTime_lt : wrapTime c t < 2 ^ w := by
  rw [wrapTime_finite h]
  exact Nat.mod_lt _ (Nat.two_pow_pos w)

theorem elapsed_lt : elapsed c now t < 2 ^ w := by
  rw [elapsed_finite h]
  exact Nat.mod_lt _ (Nat.two_pow_pos w)

/-- `elapsed` is the difference of the two times modulo `2^W_T`: with the stored time added it gives `now`. -/
theorem elapsed_add_modEq : elapsed c now t + t ≡ now [MOD 2 ^ w] := by
  have ht : t % 2 ^ w ≤ 2 ^ w := (Nat.mod_lt t (Nat.two_pow_pos w)).le
  calc elapsed c now t + t
      ≡ now % 2 ^ w + (2 ^ w - t % 2 ^ w) + t % 2 ^ w [MOD 2 ^ w] := by
        rw [elapsed_finite h]
        exact (Nat.mod_modEq _ _).add (Nat.mod_modEq _ _).symm
    _ = now % 2 ^ w + 2 ^ w := by rw [Nat.add_assoc, Nat.sub_add_cancel ht]
    _ ≡ now [MOD 2 ^ w] := by
        rw [Nat.ModEq, Nat.add_mod_right, Nat.mod_mod]

/-- Storing a time loses nothing that `elapsed` looks at. -/
theorem elapsed_wrapTime : elapsed c now (wrapTime c t) = elapsed c now t := by
  rw [elapsed_finite h, elapsed_finite h, wrapTime_finite h, Nat.mod_mod]

/-- The true distance when less than one turn of the clock has passed: both sides are below `2^W_T` and, with
`t` added, congruent to `now`. -/
theorem elapsed_wrapTime_eq_sub (hle : t ≤ now) (hlt : now < t + 2 ^ w) :
    elapsed c now (wrapTime c t) = now - t := by
  rw [elapsed_wrapTime h]
  have hmod : elapsed c now t + t ≡ now - t + t [MOD 2 ^ w] := by
    rw [Nat.sub_add_cancel hle]
    exact elapsed_add_modEq h now t
  exact (Nat.ModEq.add_right_cancel' t hmod).eq_of_lt_of_lt (elapsed_lt h now t) (by omega)

end

/-- Settles O32: the unbounded clause is the definition; with a finite W_T each part is the lemma about
`wrapTime` or `elapsed` that states it. -/
theorem elapsedTime : Obligations.ElapsedTime := by
  intro c now t
  refine ⟨fun h => ⟨wrapTime_unbounded h t, elapsed_unbounded h now t⟩, fun w h => ?_⟩
  exact ⟨wrapTime_lt h t, elapsed_lt h now t, elapsed_add_modEq h now t, elapsed_wrapTime_eq_sub h now t⟩

/-! ### Refused operands -/

theorem enqueueRequest_clockWentBack {s : State} {now : Nat} (a : AddrOperand)
    (request : State → U16 → PendingRequest) (hm : s.mode = .running) (ht : now < s.clock) :
    enqueueRequest a now request s = .refused .clockWentBack := by
  rw [enqueueRequest, requireRunning_running hm, atTime_refused ht]

theorem execTick_clockWentBack {s : State} {now : Nat} (hm : s.mode = .running) (ht : now < s.clock) :
    execTick now s = .refused .clockWentBack := by
  rw [execTick, requireRunning_running hm, atTime_refused ht]

theorem execEnqWrreg_tooManyWords {s : State} {words : List U16} (a : AddrOperand) (now : Nat)
    (hm : s.mode = .running) (hw : 127 < words.length) :
    execEnqWrreg a words now s = .refused .tooManyWords := by
  rw [execEnqWrreg, requireRunning_running hm, if_pos hw]

/-- With at most 127 words ENQ.WRREG is an enqueue operation like the other three. -/
theorem execEnqWrreg_of_length_le {s : State} {words : List U16} (a : AddrOperand) (now : Nat)
    (hm : s.mode = .running) (hw : words.length ≤ 127) :
    execEnqWrreg a words now s =
      enqueueRequest a now (fun s address => requestWrreg s address words now) s := by
  rw [execEnqWrreg, requireRunning_running hm, if_neg hw.not_gt]

/-- Settles O26: each of the five operations meets the time gate before anything else that could stop it, and
ENQ.WRREG tests the number of words before it. -/
theorem refusedOperands : Obligations.RefusedOperands := by
  refine ⟨?_, fun a words now s hm hw => execEnqWrreg_tooManyWords a now hm hw⟩
  rintro a x value words now s i (rfl | rfl | rfl | rfl | rfl) hm ht hw
  case inl => exact enqueueRequest_clockWentBack a _ hm ht
  case inr.inl => exact enqueueRequest_clockWentBack a _ hm ht
  case inr.inr.inl => exact enqueueRequest_clockWentBack a _ hm ht
  case inr.inr.inr.inl =>
    exact (execEnqWrreg_of_length_le a now hm hw).trans (enqueueRequest_clockWentBack a _ hm ht)
  case inr.inr.inr.inr => exact execTick_clockWentBack hm ht

end Sys2Proof.Machine
end

section
/-! The state block of 10_state.md: which operation writes which element (R20), the Refused mode (R21), the
requests of this engine (R22, R80, R93), the reset state (R35) and the invariant that every step keeps (R33). -/

namespace Sys2Proof.Machine

open Host

/-! ### Room in queue and receiveBuffer -/

theorem enqueue_cases (d : PendingRequest) (s : State) :
    enqueue d s = raise .queueFull s ∨
      queueFull s = false ∧ enqueue d s = answer .ok { s with queue := s.queue ++ [d] } := by
  cases hf : queueFull s with
  | true => exact .inl (enqueue_full hf)
  | false => exact .inr ⟨rfl, enqueue_room hf⟩

theorem length_queue_lt_of_room {s : State} (h : queueFull s = false) {n : Nat}
    (hn : s.cfg.queueDepth = some n) : s.queue.length < n := by
  simpa [queueFull, hn] using h

theorem length_append_le_of_fits {chunk : Bytes} {s : State} (h : overflowsBuffer chunk s = false) {n : Nat}
    (hn : s.cfg.rxCapacity = some n) : (s.receiveBuffer ++ chunk).length ≤ n := by
  simpa [overflowsBuffer, hn] using h

/-! ### The frame of a request this engine builds -/

theorem crcCheck_crcAppend (B : Bytes) : crcCheck (crcAppend B) = some true := by
  simp [crcAppend, le16, crcCheck_trailer]

theorem BuiltRequest.valid {s : State} {d : PendingRequest} (h : BuiltRequest s d) :
    ValidRequest s.slaveId d := by
  obtain ⟨fc, parts, hframe⟩ := h.frame
  refine ⟨?_, ?_, h.length⟩ <;> rw [hframe, frameEncode]
  · rfl
  · exact crcCheck_crcAppend _

/-- A frame of another slave, or with a wrong checksum, is not the frame of a valid request. -/
theorem ValidRequest.frame_ne {sid : Byte} {d : PendingRequest} {frame : Bytes} (h : ValidRequest sid d)
    (hf : frame.head? ≠ some sid ∨ crcCheck frame = some false) : d.outgoingFrame ≠ frame := by
  rintro rfl
  obtain hsid | hcrc := hf
  · exact hsid h.sid
  · simp [h.checksum] at hcrc

theorem be16_injective : Function.Injective be16 := by
  intro v w h
  simp only [be16, List.cons.injEq, and_true] at h
  obtain ⟨hhi, hlo⟩ := h
  rw [← joinBytes_hi8_lo8 v, hhi, hlo, joinBytes_hi8_lo8]

/-- A WriteRegister frame determines the 16-bit field it was built with, whatever its slave id and checksum. -/
theorem field16_eq_of_requestWrreg_frame {s : State} {sid : Byte} {address f crc : U16} {words : List U16}
    {now : Nat} (h : (requestWrreg s address words now).outgoingFrame =
      withTrailer ([sid, 0x10] ++ be16 address ++ be16 f ++
        BitVec.ofNat 8 (2 * words.length) :: be16s words) crc) :
    field16 s.cfg.wrregField16 words.length = f := by
  apply be16_injective
  have h := congrArg (fun B => (B.drop 4).take 2) h
  simpa [requestWrreg, frameEncode, crcAppend, payloadWrreg, withTrailer, be16] using h

/-- What another 16-bit field than WRREG_FIELD16 gives means, form by form (R148). -/
theorem field16_ne {p : Field16} {k : Nat} {f : U16} (hk : k ≤ 127)
    (h : p = .registerCount ∧ f.toNat ≠ k ∨ p = .byteCount ∧ f.toNat ≠ 2 * k ∨
      ∃ values, p = .table values ∧ values[k]? ≠ some f) : field16 p k ≠ f := by
  rintro rfl
  obtain ⟨rfl, h⟩ | ⟨rfl, h⟩ | ⟨values, rfl, h⟩ := h
  · exact h (Nat.mod_eq_of_lt (by omega))
  · exact h (Nat.mod_eq_of_lt (by omega))
  · have hk : k < 128 := by omega
    simp [field16, hk] at h

/-! ### The request rows -/

theorem requestFrame_foreign {frame : Bytes} {request : State → PendingRequest} {s : State}
    (hm : s.mode = .running) (h : (request s).outgoingFrame ≠ frame) :
    requestFrame frame request s = .refused .foreignRequestFrame := by
  rw [requestFrame, requireRunning_running hm, if_neg h]

/-- With at most 127 words WRREG.REQ is a request row like the other three. -/
theorem execWrregReq_of_length_le {s : State} {words : List U16} (sid : Byte) (address f crc : U16)
    (hm : s.mode = .running) (hw : words.length ≤ 127) :
    execWrregReq sid address f words crc s = requestFrame (withTrailer ([sid, 0x10] ++ be16 address ++ be16 f ++
        BitVec.ofNat 8 (2 * words.length) :: be16s words) crc)
      (fun s => requestWrreg s address words s.clock) s := by
  rw [execWrregReq, requireRunning_running hm, if_neg hw.not_gt]

theorem exec_requestRow_foreign {i : Instr} {frame : Bytes} {s : State} (hk : i.kind = .enqueue)
    (hwf : WellFormed i) (hb : frameBytes i = some frame) (hm : s.mode = .running)
    (hf : frame.head? ≠ some s.slaveId ∨ crcCheck frame = some false) :
    exec i s = .refused .foreignRequestFrame := by
  cases i with
  | rdcoilReq sid address count crc =>
    cases hb
    rw [exec, execRdcoilReq]
    exact requestFrame_foreign hm ((requestRdcoil_built _ _ _ _).valid.frame_ne hf)
  | rdregReq sid address count crc =>
    cases hb
    rw [exec, execRdregReq]
    exact requestFrame_foreign hm ((requestRdreg_built _ _ _ _).valid.frame_ne hf)
  | wrcoilReq sid address value crc =>
    cases hb
    rw [exec, execWrcoilReq]
    exact requestFrame_foreign hm ((requestWrcoil_built _ _ _ _).valid.frame_ne hf)
  | wrregReq sid address f words crc =>
    cases hb
    have hw : words.length ≤ 127 := of_decide_eq_true hwf
    exact (execWrregReq_of_length_le sid address f crc hm hw).trans
      (requestFrame_foreign hm ((requestWrreg_built _ _ _ _).valid.frame_ne hf))
  | enqRdcoil | enqRdreg | enqWrcoil | enqWrreg => cases hb
  | rdcoilRsp | rdregRsp | wrcoilRsp | wrregRsp | unknownRsp | tick | rx | trOpened | trClosed | trError
  | reset | crc16 | crcAppend | crcCheck | frameEncode | frameDecode | f2w | w2f => cases hk

/-- Settles O28: every request this engine builds is valid for its slave id, so a foreign frame is none of
them; and a WRREG.REQ frame shows the 16-bit field it was built with. -/
theorem foreignRequestRowsRefused : Obligations.ForeignRequestRowsRefused := by
  refine ⟨fun i frame s hk hwf hb hm hf => exec_requestRow_foreign hk hwf hb hm hf, ?_⟩
  intro sid address f words crc s hm hw hf
  exact (execWrregReq_of_length_le sid address f crc hm hw).trans
    (requestFrame_foreign hm fun h => field16_ne hw hf (field16_eq_of_requestWrreg_frame h))

/-! ### The Refused mode -/

/-- Settles O49: the meaning of every operation but RESET begins with the mode gate. -/
theorem refusedModeRefusesOperations : Obligations.RefusedModeRefusesOperations := by
  intro i s hm hk
  cases i with
  | reset => exact absurd rfl hk
  | rdcoilReq | rdregReq | wrcoilReq | wrregReq =>
    simp only [exec, execRdcoilReq, execRdregReq, execWrcoilReq, execWrregReq, requestFrame,
      requireRunning_refused hm]
  | rdcoilRsp | rdregRsp | wrcoilRsp | wrregRsp | unknownRsp | rx =>
    simp only [exec, execRdcoilRsp, execRdregRsp, execWrcoilRsp, execWrregRsp, execUnknownRsp, execRx, receive,
      requireRunning_refused hm]
  | enqRdcoil | enqRdreg | enqWrcoil | enqWrreg =>
    simp only [exec, execEnqRdcoil, execEnqRdreg, execEnqWrcoil, execEnqWrreg, enqueueRequest,
      requireRunning_refused hm]
  | tick | trOpened | trClosed | trError =>
    simp only [exec, execTick, execTrOpened, execTrClosed, execTrError, requireRunning_refused hm]
  | crc16 | crcAppend | crcCheck | frameEncode | frameDecode | f2w | w2f =>
    simp only [exec, execCrc16, execCrcAppend, execCrcCheck, execFrameEncode, execFrameDecode, execF2w, execW2f,
      requireRunning_refused hm]

/-! ### The writers of each element -/

/-- Settles O50, by the kind of the operation and what its kind can do to the state. -/
theorem eachElementHasItsWriters : Obligations.EachElementHasItsWriters := by
  intro i s t h
  cases hk : i.kind with
  | function =>
    obtain ⟨-, r, rfl, -⟩ := exec_function_cases hk h
    simp
  | enqueue =>
    obtain ⟨-, now, -, rfl | ⟨d, -, rfl⟩⟩ := exec_enqueue_cases hk h
    · simp
    · obtain e | ⟨-, e⟩ := enqueue_cases d { s with clock := now } <;> simp [e]
  | tick =>
    obtain ⟨-, now, -, -, rfl⟩ := exec_tick_cases hk h
    obtain ⟨r, rest, -, -, -, e⟩ | ⟨r, u, -, -, -, e⟩ | e :=
      tickSteps_cases now { s with clock := now } <;> simp [e]
  | receive =>
    obtain ⟨chunk, h⟩ := exec_receive_cases hk h
    obtain ⟨-, -, rfl | ⟨r, -, -, h⟩⟩ := receive_cases h
    · simp
    · obtain ⟨e, rfl⟩ | rfl | rfl := resolve_cases h <;> simp
  | transport =>
    obtain ⟨-, rfl | ⟨e, rfl⟩⟩ := exec_transport_cases hk h <;> simp
  | reset =>
    obtain ⟨id, -, ⟨-, rfl⟩ | ⟨-, rfl⟩⟩ := exec_reset_cases hk h <;> simp

/-! ### The writes since RESET after one more output -/

/-- The newest output ends the search when it comes from a RESET, and else counts when it is a write. -/
theorem writesSinceReset_record (o : Output) (s : State) :
    writesSinceReset (record o s) = if (Entry.mk s.clock o).ofReset then [] else
      (Entry.mk s.clock o).write?.toList ++ writesSinceReset s := by
  simp only [writesSinceReset, record_history, List.reverse_append, List.reverse_singleton,
    List.singleton_append, List.takeWhile_cons]
  cases (Entry.mk s.clock o).ofReset with
  | true => rfl
  | false => cases hw : (Entry.mk s.clock o).write? <;> simp [hw]

@[simp] theorem writesSinceReset_record_write (frame : Bytes) (s : State) :
    writesSinceReset (record (.action (.write frame)) s) = (s.clock, frame) :: writesSinceReset s :=
  writesSinceReset_record _ s

@[simp] theorem writesSinceReset_record_opened (s : State) :
    writesSinceReset (record (.action .opened) s) = [] :=
  writesSinceReset_record _ s

@[simp] theorem writesSinceReset_record_invalidIdentifier (s : State) :
    writesSinceReset (record (.result (.raised .invalidIdentifier)) s) = [] :=
  writesSinceReset_record _ s

@[simp] theorem writesSinceReset_record_event (e : Event) (s : State) :
    writesSinceReset (record (.event e) s) = writesSinceReset s :=
  writesSinceReset_record _ s

theorem writesSinceReset_record_result {r : Result} (h : r ≠ .raised .invalidIdentifier) (s : State) :
    writesSinceReset (record (.result r) s) = writesSinceReset s := by
  simp [writesSinceReset_record, Entry.ofReset, Entry.write?, h]

/-! ### What keeps the invariant -/

theorem ne_zero_of_validSlaveId {id : Int} (h : validSlaveId id = true) : BitVec.ofInt 8 id ≠ 0 := by
  simp only [validSlaveId, Bool.and_eq_true, decide_eq_true_eq] at h
  intro h0
  have hnat : (id % 256).toNat = 0 := by simpa using congrArg BitVec.toNat h0
  omega

/-- A state as RESET leaves it: nothing queued, in flight, received or written. -/
theorem inv_of_empty {s : State} (hid : s.mode = .running → s.slaveId ≠ 0) (hq : s.queue = [])
    (hf : s.inFlight = none) (hl : s.lastSendTime = none) (hb : s.receiveBuffer = [])
    (hw : writesSinceReset s = []) : Inv s where
  slaveIdLegal := hid
  refusedEmpty _ := ⟨hq, hf, hl, hb⟩
  queueValid := by simp [hq]
  inFlightValid := by simp [hf]
  lastSend := by simp [hl, hw]
  awaited := by simp [hf]
  queueBound := by simp [hq]
  bufferBound := by simp [hb]

theorem inv_reset_valid (s : State) {id : Int} (h : validSlaveId id = true) :
    Inv (act .opened { emptied s with mode := .running, slaveId := BitVec.ofInt 8 id }) :=
  inv_of_empty (fun _ => ne_zero_of_validSlaveId h) rfl rfl rfl rfl (writesSinceReset_record_opened _)

theorem inv_reset_invalid (s : State) (sid : Byte) (count : Nat) :
    Inv (raise .invalidIdentifier
      { emptied s with mode := .refused, slaveId := sid, freeCount := count }) :=
  inv_of_empty (by simp) rfl rfl rfl rfl (writesSinceReset_record_invalidIdentifier _)

namespace Inv

variable {s : State} (h : Inv s)
include h

theorem setClock (now : Nat) : Inv { s with clock := now } := { h with }

theorem setTrace (bs : Bytes) : Inv { s with trace := bs } := { h with }

/-- An output that is no frame write and comes from no RESET. -/
theorem after_record {o : Output} (hw : writesSinceReset (record o s) = writesSinceReset s) :
    Inv (record o s) :=
  { h with
    lastSend := by rw [hw]; exact h.lastSend
    awaited := by rw [hw]; exact h.awaited }

theorem after_emit (e : Event) : Inv (emit e s) := h.after_record (writesSinceReset_record_event e s)

theorem after_answer {r : Result} (hr : r ≠ .raised .invalidIdentifier) : Inv (answer r s) :=
  h.after_record (writesSinceReset_record_result hr s)

theorem after_clearBuffer : Inv (clearBuffer s) :=
  { h with
    refusedEmpty := fun hm => by
      obtain ⟨hq, hf, hl, -⟩ := h.refusedEmpty hm
      exact ⟨hq, hf, hl, rfl⟩
    bufferBound := fun n _ => n.zero_le }

/-- The request in flight ends, with its response or without one. -/
theorem endRequest : Inv { s with inFlight := none } :=
  { h with
    refusedEmpty := fun hm => by
      obtain ⟨hq, -, hl, hb⟩ := h.refusedEmpty hm
      exact ⟨hq, rfl, hl, hb⟩
    inFlightValid := fun _ hr => by cases hr
    awaited := fun _ hr => by cases hr }

variable (hm : s.mode = .running)
include hm

theorem appendBuffer {chunk : Bytes} (ho : overflowsBuffer chunk s = false) :
    Inv { s with receiveBuffer := s.receiveBuffer ++ chunk } :=
  { h with
    refusedEmpty := fun hr => by simp [hm] at hr
    bufferBound := fun _ hn => length_append_le_of_fits ho hn }

theorem appendQueue {d : PendingRequest} (hd : ValidRequest s.slaveId d) (hroom : queueFull s = false) :
    Inv { s with queue := s.queue ++ [d] } :=
  { h with
    refusedEmpty := fun hr => by simp [hm] at hr
    queueValid := fun e he => by
      obtain he | he := List.mem_append.mp he
      · exact h.queueValid e he
      · rwa [List.mem_singleton.mp he]
    queueBound := fun n hn => by
      rw [List.length_append, List.length_singleton]
      exact length_queue_lt_of_room hroom hn }

theorem after_enqueue {d : PendingRequest} (hd : ValidRequest s.slaveId d) : Inv (enqueue d s) := by
  obtain e | ⟨hroom, e⟩ := enqueue_cases d s <;> rw [e]
  · exact h.after_answer (by simp)
  · exact (h.appendQueue hm hd hroom).after_answer (by simp)

/-- The dispatch of the head: its frame becomes the latest write, at the time that is stored (R190). -/
theorem after_dispatch {r : PendingRequest} {rest : List PendingRequest} (hq : s.queue = r :: rest) :
    Inv (act (.write r.outgoingFrame)
      { s with queue := rest, inFlight := some r, lastSendTime := some (wrapTime s.cfg s.clock) }) :=
  { h with
    refusedEmpty := fun hr => by simp [hm] at hr
    queueValid := fun d hd => h.queueValid d (by rw [hq]; exact List.mem_cons_of_mem r hd)
    inFlightValid := fun d hd => by
      cases hd
      exact h.queueValid r (by simp [hq])
    lastSend := by simp
    awaited := fun d hd => by cases hd; simp
    queueBound := fun n hn => by
      have hlen : (r :: rest).length ≤ n := hq ▸ h.queueBound n hn
      exact (Nat.le_succ rest.length).trans hlen }

end Inv

/-! ### The invariant at reset and over every operation -/

theorem tickSteps_inv {now : Nat} {s : State} (h : Inv s) (hm : s.mode = .running) (hc : s.clock = now) :
    Inv (timeoutStep now (dispatchStep now s)) := by
  subst hc
  obtain ⟨r, rest, -, hq, -, e⟩ | ⟨r, t, -, -, -, e⟩ | e := tickSteps_cases s.clock s <;> rw [e]
  · exact h.after_dispatch hm hq
  · exact h.endRequest.after_emit _
  · exact h

theorem resolve_inv {r : PendingRequest} {s t : State} (h : Inv s) (hr : resolve r s = .next t) : Inv t := by
  obtain ⟨e, rfl⟩ | rfl | rfl := resolve_cases hr
  · exact (h.endRequest.after_emit e).after_clearBuffer
  · exact h.endRequest.after_clearBuffer
  · exact h.endRequest

theorem receive_inv {chunk : Bytes} {s t : State} (h : Inv s) (hr : receive chunk s = .next t) : Inv t := by
  obtain ⟨hm, ho, rfl | ⟨r, -, -, hres⟩⟩ := receive_cases hr
  · exact h.appendBuffer hm ho
  · exact resolve_inv (h.appendBuffer hm ho) hres

theorem exec_inv {i : Instr} {s t : State} (h : Inv s) (he : exec i s = .next t) : Inv t := by
  cases hk : i.kind with
  | function =>
    obtain ⟨-, r, rfl, -, hr⟩ := exec_function_cases hk he
    exact h.after_answer (hr _)
  | enqueue =>
    obtain ⟨hm, now, -, rfl | ⟨d, hd, rfl⟩⟩ := exec_enqueue_cases hk he
    · exact (h.setClock now).after_answer (by simp)
    · exact (h.setClock now).after_enqueue hm hd.valid
  | tick =>
    obtain ⟨hm, now, -, -, rfl⟩ := exec_tick_cases hk he
    exact tickSteps_inv (h.setClock now) hm rfl
  | receive =>
    obtain ⟨chunk, hr⟩ := exec_receive_cases hk he
    exact receive_inv h hr
  | transport =>
    obtain ⟨-, rfl | ⟨e, rfl⟩⟩ := exec_transport_cases hk he
    · exact h
    · exact h.after_emit e
  | reset =>
    obtain ⟨id, -, ⟨hv, rfl⟩ | ⟨-, rfl⟩⟩ := exec_reset_cases hk he
    · exact inv_reset_valid s hv
    · exact inv_reset_invalid s _ _

/-- A step that answers a next state holds the state or runs the operation at the front of the trace. -/
theorem step_cases {s t : State} (h : step s = .next t) :
    s.trace = [] ∧ t = s ∨
      ∃ i rest, decode s.trace = .ok (i, rest) ∧ exec i { s with trace := rest } = .next t := by
  unfold step at h
  split at h
  next htrace => injection h with h; exact .inl ⟨htrace, h.symm⟩
  next b bs htrace =>
    split at h
    next i rest hd => exact .inr ⟨i, rest, htrace ▸ hd, h⟩
    next => cases h

/-- Settles O55: the invariant does not read the trace, and every operation keeps it. -/
theorem invariantKeptByStep : Obligations.InvariantKeptByStep := by
  intro s t hs h
  obtain ⟨-, rfl⟩ | ⟨i, rest, -, he⟩ := step_cases h
  · exact hs
  · exact exec_inv (hs.setTrace rest) he

/-- Settles O48: each value is the definition's, and RESET 1 rebuilds the state field by field. -/
theorem resetStateValues : Obligations.ResetStateValues := by
  refine ⟨rfl, rfl, rfl, rfl, rfl, rfl, rfl, rfl, rfl, rfl, rfl, rfl, rfl, ?_⟩
  intro s hcfg hclock hhistory htrace hfree
  obtain ⟨⟩ := s
  cases hcfg; cases hclock; cases hhistory; cases htrace; cases hfree
  rfl

/-- Settles O54: State.reset is what RESET 1 leaves, and no frame has been written at it. -/
theorem invariantAtReset : Obligations.InvariantAtReset := by
  have hw : writesSinceReset State.reset = [] := rfl
  refine ⟨inv_reset_valid { State.reset with history := [] } (id := 1) rfl, ?apart, ?past⟩
  case apart => simp [hw]
  case past => simp [hw]

end Sys2Proof.Machine
end

section
/-! The order of operations of 20_memory.md: a step runs one operation whole (R58), requests are fixed when they
are enqueued (R61) and served in order (R59 (a)), one at a time (R59 (b)), with their frames at least T_GAP
apart (R59 (c)). All of it rests on one case split: between resets an operation writes no frame, or it is a
TICK that dispatches the head of the queue. -/

namespace Sys2Proof.Machine

open Host

/-! ### The frame writes after one more output -/

theorem writes_record (o : Output) (s : State) :
    writes (record o s) = writes s ++ (Entry.mk s.clock o).write?.toList := by
  simp only [writes, record_history, List.filterMap_append]
  cases hw : (Entry.mk s.clock o).write? <;> simp [hw]

@[simp] theorem writes_record_write (frame : Bytes) (s : State) :
    writes (record (.action (.write frame)) s) = writes s ++ [(s.clock, frame)] :=
  writes_record _ s

@[simp] theorem writes_record_opened (s : State) : writes (record (.action .opened) s) = writes s := by
  simp [writes_record, Entry.write?]

@[simp] theorem writes_record_event (e : Event) (s : State) : writes (record (.event e) s) = writes s := by
  simp [writes_record, Entry.write?]

@[simp] theorem writes_record_result (r : Result) (s : State) : writes (record (.result r) s) = writes s := by
  simp [writes_record, Entry.write?]

/-! ### Operations that write no frame -/

/-- What an operation that is no RESET and writes no frame can do to queue, inFlight, clock and outputs. -/
structure Quiet (s t : State) : Prop where
  queued : ∃ added, t.queue = s.queue ++ added
  inFlight : t.inFlight = s.inFlight ∨ t.inFlight = none
  clock : s.clock ≤ t.clock
  sameWrites : writes t = writes s
  sameSinceReset : writesSinceReset t = writesSinceReset s

namespace Quiet

theorem refl (s : State) : Quiet s s := ⟨⟨[], by simp⟩, .inl rfl, Nat.le_refl _, rfl, rfl⟩

variable {s t : State} (h : Quiet s t)
include h

theorem setClock {now : Nat} (ht : timeAccepted now t = true) : Quiet s { t with clock := now } :=
  { h with clock := h.clock.trans (timeAccepted_iff.mp ht) }

theorem setBuffer (bs : Bytes) : Quiet s { t with receiveBuffer := bs } := { h with }

theorem endRequest : Quiet s { t with inFlight := none } := { h with inFlight := .inr rfl }

theorem appendQueue (d : PendingRequest) : Quiet s { t with queue := t.queue ++ [d] } :=
  { h with
    queued := by
      obtain ⟨added, e⟩ := h.queued
      exact ⟨added ++ [d], by simp [e]⟩ }

theorem after_emit (e : Event) : Quiet s (emit e t) :=
  { h with
    sameWrites := (writes_record_event e t).trans h.sameWrites
    sameSinceReset := (writesSinceReset_record_event e t).trans h.sameSinceReset }

theorem after_answer {r : Result} (hr : r ≠ .raised .invalidIdentifier) : Quiet s (answer r t) :=
  { h with
    sameWrites := (writes_record_result r t).trans h.sameWrites
    sameSinceReset := (writesSinceReset_record_result hr t).trans h.sameSinceReset }

theorem after_enqueue (d : PendingRequest) : Quiet s (enqueue d t) := by
  obtain e | ⟨-, e⟩ := enqueue_cases d t <;> rw [e]
  · exact h.after_answer (by simp)
  · exact (h.appendQueue d).after_answer (by simp)

end Quiet

theorem resolve_quiet {r : PendingRequest} {s t u : State} (h : Quiet s t) (hr : resolve r t = .next u) :
    Quiet s u := by
  obtain ⟨e, rfl⟩ | rfl | rfl := resolve_cases hr
  · exact (h.endRequest.after_emit e).setBuffer []
  · exact h.endRequest.setBuffer []
  · exact h.endRequest

theorem receive_quiet {chunk : Bytes} {s t : State} (h : receive chunk s = .next t) : Quiet s t := by
  obtain ⟨-, -, rfl | ⟨r, -, -, hres⟩⟩ := receive_cases h
  · exact (Quiet.refl s).setBuffer _
  · exact resolve_quiet ((Quiet.refl s).setBuffer _) hres

/-! ### The TICK that dispatches -/

/-- From `s` to `t` a TICK at `now` puts the head `r` of the queue in flight and writes its frame (R190 step 1). -/
structure Dispatches (now : Nat) (r : PendingRequest) (s t : State) : Prop where
  accepted : s.clock ≤ now
  idle : s.inFlight = none
  head : s.queue = r :: t.queue
  spacing : spacingPassed now s = true
  inFlight : t.inFlight = some r
  clock : t.clock = now
  newWrite : writes t = writes s ++ [(now, r.outgoingFrame)]
  newSinceReset : writesSinceReset t = (now, r.outgoingFrame) :: writesSinceReset s

theorem tickSteps_quiet_or_dispatches {now : Nat} {s : State} (ht : timeAccepted now s = true) :
    Quiet s (timeoutStep now (dispatchStep now { s with clock := now })) ∨
      ∃ r, Dispatches now r s (timeoutStep now (dispatchStep now { s with clock := now })) := by
  have hclock : Quiet s { s with clock := now } := (Quiet.refl s).setClock ht
  obtain ⟨r, rest, hf, hq, hs, e⟩ | ⟨r, u, -, -, -, e⟩ | e := tickSteps_cases now { s with clock := now } <;>
    rw [e]
  · exact .inr ⟨r, timeAccepted_iff.mp ht, hf, hq, hs, rfl, rfl, writes_record_write _ _,
      writesSinceReset_record_write _ _⟩
  · exact .inl (hclock.endRequest.after_emit _)
  · exact .inl hclock

/-- Between resets an operation writes no frame, or it is a TICK that dispatches the head of the queue. -/
theorem exec_quiet_or_dispatches {i : Instr} {s t : State} (hk : i.kind ≠ .reset) (h : exec i s = .next t) :
    Quiet s t ∨ ∃ now r, i = .tick now ∧ Dispatches now r s t := by
  cases hkind : i.kind with
  | function =>
    obtain ⟨-, r, rfl, -, hr⟩ := exec_function_cases hkind h
    exact .inl ((Quiet.refl s).after_answer (hr _))
  | enqueue =>
    obtain ⟨-, now, ht, rfl | ⟨d, -, rfl⟩⟩ := exec_enqueue_cases hkind h
    · exact .inl (((Quiet.refl s).setClock ht).after_answer (by simp))
    · exact .inl (((Quiet.refl s).setClock ht).after_enqueue d)
  | tick =>
    obtain ⟨-, now, hi, ht, rfl⟩ := exec_tick_cases hkind h
    obtain hq | ⟨r, hd⟩ := tickSteps_quiet_or_dispatches ht
    · exact .inl hq
    · exact .inr ⟨now, r, hi, hd⟩
  | receive =>
    obtain ⟨chunk, h⟩ := exec_receive_cases hkind h
    exact .inl (receive_quiet h)
  | transport =>
    obtain ⟨-, rfl | ⟨e, rfl⟩⟩ := exec_transport_cases hkind h
    · exact .inl (.refl _)
    · exact .inl ((Quiet.refl s).after_emit e)
  | reset => exact absurd hkind hk

theorem exec_reset_writes {i : Instr} {s t : State} (hk : i.kind = .reset) (h : exec i s = .next t) :
    writes t = writes s ∧ writesSinceReset t = [] := by
  obtain ⟨id, -, ⟨-, rfl⟩ | ⟨-, rfl⟩⟩ := exec_reset_cases hk h
  · exact ⟨writes_record_opened _, writesSinceReset_record_opened _⟩
  · exact ⟨writes_record_result _ _, writesSinceReset_record_invalidIdentifier _⟩

/-! ### The spacing of frame writes (R59 (c)) -/

/-- The spacing test read on the outputs: lastSendTime is the latest write's time, and the elapsed time it gives
is never longer than the true one, so T_GAP has truly passed since that write. -/
theorem Inv.latestWrite_gap {s : State} (h : Inv s) {now : Nat} (hs : spacingPassed now s = true)
    {w : Nat × Bytes} {earlier : List (Nat × Bytes)} (hw : writesSinceReset s = w :: earlier)
    (hle : w.1 ≤ now) : w.1 + s.cfg.tGap ≤ now := by
  have hlast : s.lastSendTime = some (wrapTime s.cfg w.1) := by simp [h.lastSend, hw]
  have hgap : s.cfg.tGap ≤ elapsed s.cfg now (wrapTime s.cfg w.1) := by simpa [spacingPassed, hlast] using hs
  have hreal := elapsed_wrapTime_le s.cfg hle
  omega

/-- When the spacing test passes, every write since RESET is at least T_GAP ago: the latest by the test, an
earlier one because it lies before the latest. -/
theorem Spaced.gap_of_spacingPassed {s : State} (hi : Inv s) (h : Spaced s) {now : Nat} (hc : s.clock ≤ now)
    (hs : spacingPassed now s = true) : ∀ w ∈ writesSinceReset s, w.1 + s.cfg.tGap ≤ now := by
  obtain ⟨apart, past⟩ := h
  cases hw : writesSinceReset s with
  | nil => simp
  | cons latest earlier =>
    rw [hw] at apart past
    have hle : latest.1 ≤ now := (past latest List.mem_cons_self).trans hc
    have hbefore := (List.pairwise_cons.mp apart).1
    intro w hmem
    obtain rfl | hmem := List.mem_cons.mp hmem
    · exact hi.latestWrite_gap hs hw hle
    · exact (hbefore w hmem).trans hle

theorem Spaced.quiet {s t : State} (h : Spaced s) (hq : Quiet s t) (hcfg : t.cfg = s.cfg) : Spaced t where
  apart := by rw [hq.sameSinceReset, hcfg]; exact h.apart
  past := by rw [hq.sameSinceReset]; exact fun w hw => (h.past w hw).trans hq.clock

theorem Spaced.dispatches {now : Nat} {r : PendingRequest} {s t : State} (hi : Inv s) (h : Spaced s)
    (hd : Dispatches now r s t) (hcfg : t.cfg = s.cfg) : Spaced t where
  apart := by
    rw [hd.newSinceReset, hcfg]
    exact List.pairwise_cons.mpr ⟨h.gap_of_spacingPassed hi hd.accepted hd.spacing, h.apart⟩
  past := by
    rw [hd.newSinceReset, hd.clock]
    exact List.forall_mem_cons.mpr ⟨Nat.le_refl now, fun w hw => (h.past w hw).trans hd.accepted⟩

theorem spaced_of_no_writes {s : State} (h : writesSinceReset s = []) : Spaced s := by
  constructor <;> simp [h]

theorem exec_spaced {i : Instr} {s t : State} (hi : Inv s) (h : Spaced s) (he : exec i s = .next t) :
    Spaced t := by
  obtain ⟨-, -, -, -, -, hcfg, -⟩ := eachElementHasItsWriters i s t he
  by_cases hk : i.kind = .reset
  · exact spaced_of_no_writes (exec_reset_writes hk he).2
  · obtain hq | ⟨now, r, -, hd⟩ := exec_quiet_or_dispatches hk he
    · exact h.quiet hq hcfg
    · exact h.dispatches hi hd hcfg

/-- Settles O56: neither the invariant nor the spacing reads the trace, and every operation keeps the spacing. -/
theorem spacingKeptByStep : Obligations.SpacingKeptByStep := by
  intro s t hi hs h
  obtain ⟨-, rfl⟩ | ⟨i, rest, -, he⟩ := step_cases h
  · exact hs
  · exact exec_spaced (hi.setTrace rest) { hs with } he

/-! ### The requests, from ENQ to the write -/

/-- Settles O52: a RESET and a quiet operation write nothing, so the operation is a dispatch. -/
theorem singleInFlight : Obligations.SingleInFlight := by
  intro i s t h hne
  have hk : i.kind ≠ .reset := fun hk => hne (exec_reset_writes hk h).1
  obtain hq | ⟨now, r, hi, hd⟩ := exec_quiet_or_dispatches hk h
  · exact absurd hq.sameWrites hne
  · exact ⟨now, r, t.queue, hi, hd.idle, hd.head, hd.newWrite, hd.inFlight, rfl⟩

/-- Settles O60: a quiet operation only adds to the queue, and a dispatch takes the head as it is stored. -/
theorem requestsFixedAtEnqueue : Obligations.RequestsFixedAtEnqueue := by
  intro i s t h hk
  obtain ⟨hkept, -⟩ := eachElementHasItsWriters i s t h
  refine ⟨?_, (hkept hk).2⟩
  obtain hq | ⟨now, r, rfl, hd⟩ := exec_quiet_or_dispatches hk h
  · obtain ⟨added, hadded⟩ := hq.queued
    exact .inl ⟨added, hadded, by rw [hq.sameWrites], hq.inFlight⟩
  · exact .inr ⟨r, rfl, hd.idle, hd.head, hd.inFlight, by simp [hd.newWrite]⟩

/-- One operation serves the queue in order: the frames queued and accepted are the frame it writes, if any,
followed by the frames queued after it. -/
theorem exec_fifo {i : Instr} {s t : State} (hk : i.kind ≠ .reset) (h : exec i s = .next t) :
    ∃ sent : List Bytes, (writes t).map (·.2) = (writes s).map (·.2) ++ sent ∧
      s.queue.map (·.outgoingFrame) ++ acceptedFrames s t = sent ++ t.queue.map (·.outgoingFrame) := by
  obtain ⟨⟨added, hqueue, hwrites, -⟩ | ⟨r, -, -, hqueue, -, hwrites⟩, -⟩ := requestsFixedAtEnqueue i s t h hk
  · exact ⟨[], by simp [hwrites], by simp [acceptedFrames, hqueue]⟩
  · exact ⟨[r.outgoingFrame], hwrites, by simp [acceptedFrames, hqueue]⟩

/-- Settles O53, by induction on the operations of the run, each of which serves the queue in order. -/
theorem fifoService : Obligations.FifoService := by
  intro is
  induction is with
  | nil =>
    intro s t _ h
    cases h
    exact ⟨[], by simp, by simp [acceptedAlong]⟩
  | cons i is ih =>
    intro s t hk h
    obtain ⟨hki, hkis⟩ := List.forall_mem_cons.mp hk
    unfold runList at h
    split at h
    next u hu =>
      obtain ⟨sent, hwrites, hqueue⟩ := exec_fifo hki hu
      obtain ⟨sent', hwrites', hqueue'⟩ := ih u t hkis h
      refine ⟨sent ++ sent', by simp [hwrites', hwrites], ?_⟩
      calc s.queue.map (·.outgoingFrame) ++ acceptedAlong (i :: is) s
          = s.queue.map (·.outgoingFrame) ++ acceptedFrames s u ++ acceptedAlong is u := by
            simp [acceptedAlong, hu]
        _ = sent ++ (u.queue.map (·.outgoingFrame) ++ acceptedAlong is u) := by
            rw [hqueue, List.append_assoc]
        _ = sent ++ sent' ++ t.queue.map (·.outgoingFrame) := by rw [hqueue', List.append_assoc]
    next => cases h
    next => cases h

/-! ### The step -/

theorem step_of_decode {s : State} {i : Instr} {rest : Bytes} (hd : decode s.trace = .ok (i, rest)) :
    step s = exec i { s with trace := rest } := by
  cases htrace : s.trace with
  | nil => simp [htrace, decode] at hd
  | cons b bs =>
    rw [htrace] at hd
    simp only [step, htrace, hd]

theorem step_of_trace_nil {s : State} (h : s.trace = []) : step s = .next s := by
  simp only [step, h]

theorem step_of_decode_error {s : State} {e : DecodeError} (hne : s.trace ≠ []) (hd : decode s.trace = .error e) :
    step s = .fault (.badEncoding e) := by
  obtain ⟨b, bs, htrace⟩ := List.exists_cons_of_ne_nil hne
  rw [htrace] at hd
  simp only [step, htrace, hd]

/-- Settles O5: the three clauses are the three equations of `step`. -/
theorem stepRunsDecodedInstruction : Obligations.StepRunsDecodedInstruction :=
  ⟨fun _ _ _ => step_of_decode, fun _ => step_of_trace_nil, fun _ _ => step_of_decode_error⟩

end Sys2Proof.Machine
end

section
/-! The encoding of 30_encoding.md. A frame's layout is stated once for each row (R82 to R85) and read both ways:
the decoder gives a well-formed row back from its bytes, and what it accepts are the bytes of a well-formed
row. With the operand decoders of Laws/Decode.lean this makes `decode` the inverse of `encode`. -/

namespace Sys2Proof

open Machine

/-- The trailer holds the checksum low byte first (R91). -/
@[simp] theorem withTrailer_eq (body : Bytes) (crc : U16) : withTrailer body crc = body ++ [lo8 crc, hi8 crc] := rfl

@[simp] theorem wellFormed_wrregReq (s : Byte) (a f : U16) (words : List U16) (crc : U16) :
    WellFormed (.wrregReq s a f words crc) ↔ words.length ≤ 127 := by
  simp only [WellFormed, Instr.wellFormed, decide_eq_true_eq]

@[simp] theorem wellFormed_unknownRsp (s fc : Byte) (payload : Bytes) (crc : U16) :
    WellFormed (.unknownRsp s fc payload crc) ↔ isNamedFunctionCode fc = false := by
  simp only [WellFormed, Instr.wellFormed, Bool.not_eq_true']

/-! ### Request frames -/

theorem decodeRequest_rdcoilReq (s ah al nh nl cl ch : Byte) :
    decodeRequest [s, 0x01, ah, al, nh, nl, cl, ch] =
      .ok (.rdcoilReq s (joinBytes ah al) (joinBytes nh nl) (joinBytes ch cl)) := rfl

theorem decodeRequest_rdregReq (s ah al nh nl cl ch : Byte) :
    decodeRequest [s, 0x03, ah, al, nh, nl, cl, ch] =
      .ok (.rdregReq s (joinBytes ah al) (joinBytes nh nl) (joinBytes ch cl)) := rfl

theorem decodeRequest_wrcoilReq (s ah al cl ch : Byte) (value : Bool) :
    decodeRequest ([s, 0x05, ah, al] ++ coilBytes value ++ [cl, ch]) =
      .ok (.wrcoilReq s (joinBytes ah al) value (joinBytes ch cl)) := by
  cases value <;> rfl

/-- The byte byteCount holds twice the number of words, since there are at most 127 (R83, R148). -/
theorem toNat_byteCount {words : List U16} (h : words.length ≤ 127) :
    (BitVec.ofNat 8 (2 * words.length)).toNat = (be16s words).length := by
  rw [BitVec.toNat_ofNat, length_be16s]; omega

theorem decodeRequest_wrregReq (s ah al fh fl cl ch : Byte) {words : List U16} (h : words.length ≤ 127) :
    decodeRequest ([s, 0x10, ah, al, fh, fl, BitVec.ofNat 8 (2 * words.length)] ++ be16s words ++ [cl, ch]) =
      .ok (.wrregReq s (joinBytes ah al) (joinBytes fh fl) words (joinBytes ch cl)) := by
  simp [decodeRequest, decodeRqw, -BitVec.toNat_ofNat, -length_be16s, toNat_byteCount h, pairWords_be16s]

/-- The decoder gives a well-formed request row back from its frame. -/
theorem decodeRequest_frameBytes {i : Instr} (hs : i.space = .wireRequest) (hw : WellFormed i) :
    ∃ frame, frameBytes i = some frame ∧ decodeRequest frame = .ok i := by
  cases i with
  | rdcoilReq s a n crc =>
    exact ⟨_, rfl, by
      simpa [be16] using decodeRequest_rdcoilReq s (hi8 a) (lo8 a) (hi8 n) (lo8 n) (lo8 crc) (hi8 crc)⟩
  | rdregReq s a n crc =>
    exact ⟨_, rfl, by
      simpa [be16] using decodeRequest_rdregReq s (hi8 a) (lo8 a) (hi8 n) (lo8 n) (lo8 crc) (hi8 crc)⟩
  | wrcoilReq s a v crc =>
    exact ⟨_, rfl, by simpa [be16] using decodeRequest_wrcoilReq s (hi8 a) (lo8 a) (lo8 crc) (hi8 crc) v⟩
  | wrregReq s a f words crc =>
    have hl : words.length ≤ 127 := by simpa using hw
    exact ⟨_, rfl, by
      simpa [be16] using decodeRequest_wrregReq s (hi8 a) (lo8 a) (hi8 f) (lo8 f) (lo8 crc) (hi8 crc) hl⟩
  | _ => cases hs

/-- `i` is a well-formed row of the space `sp`, and `frame` is its frame. -/
structure FrameOf (sp : Space) (i : Instr) (frame : Bytes) : Prop where
  space : i.space = sp
  wellFormed : WellFormed i
  bytes : frameBytes i = some frame

theorem frameOf_of_decodeRq4 {s fc : Byte} {bs : Bytes} {i : Instr}
    (hfc : fc = 0x01#8 ∨ fc = 0x03#8 ∨ fc = 0x05#8) (h : decodeRq4 s fc bs = .ok i) :
    FrameOf .wireRequest i (s :: fc :: bs) := by
  unfold decodeRq4 at h
  split at h
  next ah al xh xl cl ch =>
    split at h
    next h1 => cases h; exact ⟨rfl, rfl, by simp [frameBytes, be16, h1]⟩
    next h1 =>
      split at h
      next h3 => cases h; exact ⟨rfl, rfl, by simp [frameBytes, be16, h3]⟩
      next h3 =>
        obtain rfl : fc = 0x05#8 := by simpa [h1, h3] using hfc
        split at h
        next hv => cases h; exact ⟨rfl, rfl, by simp [frameBytes, be16, coilBytes, hv]⟩
        next =>
          split at h
          next hv => cases h; exact ⟨rfl, rfl, by simp [frameBytes, be16, coilBytes, hv]⟩
          next => cases h
  next => cases h

theorem frameOf_of_decodeRqw {s : Byte} {bs : Bytes} {i : Instr} (h : decodeRqw s bs = .ok i) :
    FrameOf .wireRequest i (s :: 0x10#8 :: bs) := by
  unfold decodeRqw at h
  split at h
  next ah al fh fl bc rest =>
    split at h
    next => cases h
    next hl =>
      split at h
      next words cl ch hw hc =>
        have hb : rest.take bc.toNat = be16s words := eq_of_pairWords hw
        have hbc : 2 * words.length = bc.toNat := by
          rw [← length_be16s, ← hb, List.length_take]; omega
        cases h
        refine ⟨rfl, ?_, ?_⟩
        · have := bc.isLt
          rw [wellFormed_wrregReq]; omega
        · rw [← List.take_append_drop bc.toNat rest, hb, hc]
          simp [frameBytes, be16, hbc]
      next => cases h
  next => cases h

/-- A request frame that is accepted is the frame of the well-formed row it is read as. -/
theorem frameOf_of_decodeRequest {frame : Bytes} {i : Instr} (h : decodeRequest frame = .ok i) :
    FrameOf .wireRequest i frame := by
  unfold decodeRequest at h
  split at h
  next s fc rest =>
    split at h
    next hfc => subst hfc; exact frameOf_of_decodeRqw h
    next =>
      split at h
      next hfc => exact frameOf_of_decodeRq4 hfc h
      next => cases h
  next => cases h

/-! ### Response frames -/

/-- The checksum of a response frame is its last two bytes, and byte 1 selects the format (R80, R81). -/
theorem decodeResponse_trailer (s fc cl ch : Byte) (payload : Bytes) :
    decodeResponse ([s, fc] ++ payload ++ [cl, ch]) =
      if fc = 0x01#8 ∨ fc = 0x03#8 then decodeRsr s fc (joinBytes ch cl) payload
      else if fc = 0x05#8 ∨ fc = 0x10#8 then decodeRsw s fc (joinBytes ch cl) payload
      else .ok (.unknownRsp s fc payload (joinBytes ch cl)) := by
  simp [decodeResponse]

theorem isNamedFunctionCode_eq_false {fc : Byte} :
    isNamedFunctionCode fc = false ↔ ¬ (fc = 0x01#8 ∨ fc = 0x03#8) ∧ ¬ (fc = 0x05#8 ∨ fc = 0x10#8) := by
  simp [isNamedFunctionCode, and_assoc]

theorem decodeResponse_unknownRsp (s cl ch : Byte) {fc : Byte} (payload : Bytes)
    (h : isNamedFunctionCode fc = false) :
    decodeResponse ([s, fc] ++ payload ++ [cl, ch]) = .ok (.unknownRsp s fc payload (joinBytes ch cl)) := by
  obtain ⟨hr, hw⟩ := isNamedFunctionCode_eq_false.mp h
  rw [decodeResponse_trailer, if_neg hr, if_neg hw]

/-- The decoder gives a well-formed response row back from its frame. -/
theorem decodeResponse_frameBytes {i : Instr} (hs : i.space = .wireResponse) (hw : WellFormed i) :
    ∃ frame, frameBytes i = some frame ∧ decodeResponse frame = .ok i := by
  cases i with
  | rdcoilRsp s n data crc =>
    exact ⟨_, rfl, by simpa [decodeRsr] using decodeResponse_trailer s 0x01 (lo8 crc) (hi8 crc) (n :: data)⟩
  | rdregRsp s n data crc =>
    exact ⟨_, rfl, by simpa [decodeRsr] using decodeResponse_trailer s 0x03 (lo8 crc) (hi8 crc) (n :: data)⟩
  | wrcoilRsp s x0 x1 x2 x3 crc =>
    exact ⟨_, rfl, by simpa [decodeRsw] using decodeResponse_trailer s 0x05 (lo8 crc) (hi8 crc) [x0, x1, x2, x3]⟩
  | wrregRsp s x0 x1 x2 x3 crc =>
    exact ⟨_, rfl, by simpa [decodeRsw] using decodeResponse_trailer s 0x10 (lo8 crc) (hi8 crc) [x0, x1, x2, x3]⟩
  | unknownRsp s fc payload crc =>
    have hfc : isNamedFunctionCode fc = false := by simpa using hw
    exact ⟨_, rfl, by simpa using decodeResponse_unknownRsp s (lo8 crc) (hi8 crc) payload hfc⟩
  | _ => cases hs

theorem frameOf_of_decodeRsr {s fc cl ch : Byte} {payload : Bytes} {i : Instr}
    (hfc : fc = 0x01#8 ∨ fc = 0x03#8) (h : decodeRsr s fc (joinBytes ch cl) payload = .ok i) :
    FrameOf .wireResponse i ([s, fc] ++ payload ++ [cl, ch]) := by
  unfold decodeRsr at h
  split at h
  next n data =>
    split at h
    next h1 => cases h; exact ⟨rfl, rfl, by simp [frameBytes, h1]⟩
    next h1 =>
      obtain rfl := hfc.resolve_left h1
      cases h; exact ⟨rfl, rfl, by simp [frameBytes]⟩
  next => cases h

theorem frameOf_of_decodeRsw {s fc cl ch : Byte} {payload : Bytes} {i : Instr}
    (hfc : fc = 0x05#8 ∨ fc = 0x10#8) (h : decodeRsw s fc (joinBytes ch cl) payload = .ok i) :
    FrameOf .wireResponse i ([s, fc] ++ payload ++ [cl, ch]) := by
  unfold decodeRsw at h
  split at h
  next x0 x1 x2 x3 =>
    split at h
    next h5 => cases h; exact ⟨rfl, rfl, by simp [frameBytes, h5]⟩
    next h5 =>
      obtain rfl := hfc.resolve_left h5
      cases h; exact ⟨rfl, rfl, by simp [frameBytes]⟩
  next => cases h

/-- A response frame that is accepted ends in a trailer. -/
theorem trailer_of_decodeResponse {frame : Bytes} {i : Instr} (h : decodeResponse frame = .ok i) :
    ∃ s fc payload cl ch, frame = [s, fc] ++ payload ++ [cl, ch] := by
  unfold decodeResponse at h
  split at h
  next s fc rest =>
    split at h
    next cl ch htail =>
      exact ⟨s, fc, rest.take (rest.length - 2), cl, ch, by
        rw [List.append_assoc, ← htail, List.take_append_drop]; rfl⟩
    next => cases h
  next => cases h

/-- A response frame that is accepted is the frame of the well-formed row it is read as. -/
theorem frameOf_of_decodeResponse {frame : Bytes} {i : Instr} (h : decodeResponse frame = .ok i) :
    FrameOf .wireResponse i frame := by
  obtain ⟨s, fc, payload, cl, ch, rfl⟩ := trailer_of_decodeResponse h
  rw [decodeResponse_trailer] at h
  split at h
  next hr => exact frameOf_of_decodeRsr hr h
  next hr =>
    split at h
    next hw => exact frameOf_of_decodeRsw hw h
    next hw =>
      cases h
      exact ⟨rfl, by simpa using isNamedFunctionCode_eq_false.mpr ⟨hr, hw⟩, by simp [frameBytes]⟩

/-! ### Host operations -/

/-- The decoder gives a host operation back from its selector and its operands. -/
theorem decodeHostOp_encodeOperands {i : Instr} (hs : i.space = .hostOp) (rest : Bytes) :
    decodeHostOp i.selector (encodeOperands i ++ rest) = .ok (i, rest) := by
  cases i with
  | enqRdcoil a x now | enqRdreg a x now =>
    simp [decodeHostOp, Instr.selector, encodeOperands, decAddr_encAddr, decU16_be16, decNat_encNat, ok_bind]
  | enqWrcoil a v now =>
    simp [decodeHostOp, Instr.selector, encodeOperands, decAddr_encAddr, decBool_encBool, decNat_encNat, ok_bind]
  | enqWrreg a words now =>
    simp [decodeHostOp, Instr.selector, encodeOperands, decAddr_encAddr, decWords_encWords, decNat_encNat, ok_bind]
  | tick now => simp [decodeHostOp, Instr.selector, encodeOperands, decNat_encNat, ok_bind]
  | reset id => simp [decodeHostOp, Instr.selector, encodeOperands, decInt_encInt, ok_bind]
  | trOpened | trClosed => rfl
  | rx b | trError b | crc16 b | crcAppend b | crcCheck b | frameDecode b | w2f b =>
    simp [decodeHostOp, Instr.selector, encodeOperands, decBytes_encBytes, ok_bind]
  | frameEncode s fc parts =>
    simp [decodeHostOp, Instr.selector, encodeOperands, decByte, decParts_encParts, ok_bind]
  | f2w x => simp [decodeHostOp, Instr.selector, encodeOperands, decU32_be32, ok_bind]
  | _ => cases hs

/-- When the first part of a bind reads nothing but what `enc` writes, and the bind succeeds, the bytes begin with
an encoded operand, and the rest of the bind succeeds on the bytes after it. -/
theorem read_bind_ok {α β : Type} {dec : Bytes → Except DecodeError (α × Bytes)} {enc : α → Bytes}
    (hdec : ∀ {bs rest a}, dec bs = .ok (a, rest) → bs = enc a ++ rest) {bs : Bytes}
    {f : α × Bytes → Except DecodeError β} {b : β} (h : (dec bs >>= f) = .ok b) :
    ∃ a rest, bs = enc a ++ rest ∧ f (a, rest) = .ok b := by
  obtain ⟨⟨a, rest⟩, hread, h⟩ := bind_ok h
  exact ⟨a, rest, hdec hread, h⟩

/-- `i` is the host operation with selector `op`, and `bs` are its operands and then `rest`. -/
structure HostOpOf (op : Byte) (bs : Bytes) (i : Instr) (rest : Bytes) : Prop where
  space : i.space = .hostOp
  selector : op = i.selector
  operands : bs = encodeOperands i ++ rest

/-- What a row of R99 decodes is its operands; the cases are the rows in the table's order, and those with operands
of one form are taken together. -/
theorem hostOpOf_of_decodeHostOp {op : Byte} {bs rest : Bytes} {i : Instr} (h : decodeHostOp op bs = .ok (i, rest)) :
    HostOpOf op bs i rest := by
  unfold decodeHostOp at h
  split at h
  -- ENQ.RDCOIL, ENQ.RDREG
  case h_1 hop | h_2 hop =>
    obtain ⟨a, b1, h1, h⟩ := read_bind_ok eq_of_decAddr h
    obtain ⟨x, b2, h2, h⟩ := read_bind_ok eq_of_decU16 h
    obtain ⟨now, b3, h3, h⟩ := read_bind_ok eq_of_decNat h
    cases h; exact ⟨rfl, BitVec.eq_of_toNat_eq hop, by simp [encodeOperands, h1, h2, h3]⟩
  -- ENQ.WRCOIL
  case h_3 hop =>
    obtain ⟨a, b1, h1, h⟩ := read_bind_ok eq_of_decAddr h
    obtain ⟨v, b2, h2, h⟩ := read_bind_ok eq_of_decBool h
    obtain ⟨now, b3, h3, h⟩ := read_bind_ok eq_of_decNat h
    cases h; exact ⟨rfl, BitVec.eq_of_toNat_eq hop, by simp [encodeOperands, h1, h2, h3]⟩
  -- ENQ.WRREG
  case h_4 hop =>
    obtain ⟨a, b1, h1, h⟩ := read_bind_ok eq_of_decAddr h
    obtain ⟨ws, b2, h2, h⟩ := read_bind_ok eq_of_decWords h
    obtain ⟨now, b3, h3, h⟩ := read_bind_ok eq_of_decNat h
    cases h; exact ⟨rfl, BitVec.eq_of_toNat_eq hop, by simp [encodeOperands, h1, h2, h3]⟩
  -- TICK
  case h_5 hop =>
    obtain ⟨now, b1, h1, h⟩ := read_bind_ok eq_of_decNat h
    cases h; exact ⟨rfl, BitVec.eq_of_toNat_eq hop, h1⟩
  -- RX, TR.ERROR, CRC16, CRC.APPEND, CRC.CHECK, DECODE, W2F
  case h_6 hop | h_9 hop | h_11 hop | h_12 hop | h_13 hop | h_15 hop | h_17 hop =>
    obtain ⟨b, b1, h1, h⟩ := read_bind_ok eq_of_decBytes h
    cases h; exact ⟨rfl, BitVec.eq_of_toNat_eq hop, h1⟩
  -- TR.OPENED, TR.CLOSED
  case h_7 hop | h_8 hop => cases h; exact ⟨rfl, BitVec.eq_of_toNat_eq hop, rfl⟩
  -- RESET
  case h_10 hop =>
    obtain ⟨id, b1, h1, h⟩ := read_bind_ok eq_of_decInt h
    cases h; exact ⟨rfl, BitVec.eq_of_toNat_eq hop, h1⟩
  -- ENCODE
  case h_14 hop =>
    obtain ⟨s, b1, h1, h⟩ := read_bind_ok (enc := fun b => [b]) eq_of_decByte h
    obtain ⟨fc, b2, h2, h⟩ := read_bind_ok (enc := fun b => [b]) eq_of_decByte h
    obtain ⟨parts, b3, h3, h⟩ := read_bind_ok eq_of_decParts h
    cases h; exact ⟨rfl, BitVec.eq_of_toNat_eq hop, by simp [encodeOperands, h1, h2, h3]⟩
  -- F2W
  case h_16 hop =>
    obtain ⟨x, b1, h1, h⟩ := read_bind_ok eq_of_decU32 h
    cases h; exact ⟨rfl, BitVec.eq_of_toNat_eq hop, h1⟩
  -- no selector of R99
  case h_18 => cases h

theorem wellFormed_of_hostOp {i : Instr} (hs : i.space = .hostOp) : WellFormed i := by
  cases i with
  | rdcoilReq | rdregReq | wrcoilReq | wrregReq | rdcoilRsp | rdregRsp | wrcoilRsp | wrregRsp | unknownRsp =>
    cases hs
  | _ => rfl

/-- No selector of R99 is a tag of a wire space (log entry 9). -/
theorem selector_ne_tag {i : Instr} (hs : i.space = .hostOp) :
    i.selector ≠ requestTag ∧ i.selector ≠ responseTag := by
  cases i with
  | rdcoilReq | rdregReq | wrcoilReq | wrregReq | rdcoilRsp | rdregRsp | wrcoilRsp | wrregRsp | unknownRsp =>
    cases hs
  | _ => simp [Instr.selector, requestTag, responseTag]

/-! ### The trace -/

theorem FrameOf.encode_request {i : Instr} {frame : Bytes} (h : FrameOf .wireRequest i frame) :
    encode i = requestTag :: encBytes 0 frame := by
  simp [encode, h.space, h.bytes]

theorem FrameOf.encode_response {i : Instr} {frame : Bytes} (h : FrameOf .wireResponse i frame) :
    encode i = responseTag :: encBytes 0 frame := by
  simp [encode, h.space, h.bytes]

theorem encode_hostOp {i : Instr} (hs : i.space = .hostOp) : encode i = i.selector :: encodeOperands i := by
  simp [encode, hs]

/-- A frame in the trace is read by its length and then by the decoder `dec` of its space. -/
theorem decBytes_bind_eq_ok_iff {dec : Bytes → Except DecodeError Instr} {bs rest : Bytes} {i : Instr} :
    (decBytes 0 bs >>= fun p => dec p.1 >>= fun i => .ok (i, p.2)) = .ok (i, rest) ↔
      ∃ frame, bs = encBytes 0 frame ++ rest ∧ dec frame = .ok i := by
  constructor
  · intro h
    obtain ⟨frame, b1, hb, h⟩ := read_bind_ok eq_of_decBytes h
    obtain ⟨j, hj, h⟩ := bind_ok h
    cases h
    exact ⟨frame, hb, hj⟩
  · rintro ⟨frame, rfl, hd⟩
    rw [decBytes_encBytes, ok_bind, hd, ok_bind]

theorem decode_requestTag_eq_ok_iff {bs rest : Bytes} {i : Instr} : decode (requestTag :: bs) = .ok (i, rest) ↔
    ∃ frame, bs = encBytes 0 frame ++ rest ∧ decodeRequest frame = .ok i :=
  decBytes_bind_eq_ok_iff

theorem decode_responseTag_eq_ok_iff {bs rest : Bytes} {i : Instr} : decode (responseTag :: bs) = .ok (i, rest) ↔
    ∃ frame, bs = encBytes 0 frame ++ rest ∧ decodeResponse frame = .ok i :=
  decBytes_bind_eq_ok_iff

theorem decode_selector {op : Byte} (hq : op ≠ requestTag) (hr : op ≠ responseTag) (bs : Bytes) :
    decode (op :: bs) = decodeHostOp op bs := by
  rw [decode, if_neg hq, if_neg hr]

/-! ### The round trip -/

/-- Settles O1: each space's decoder gives the operation back, from its frame or from its operands. -/
theorem decodeEncodeRoundTrip : Obligations.DecodeEncodeRoundTrip := by
  intro i rest hw
  cases hs : i.space with
  | wireRequest =>
    obtain ⟨frame, hf, hd⟩ := decodeRequest_frameBytes hs hw
    rw [FrameOf.encode_request ⟨hs, hw, hf⟩]
    exact decode_requestTag_eq_ok_iff.mpr ⟨frame, rfl, hd⟩
  | wireResponse =>
    obtain ⟨frame, hf, hd⟩ := decodeResponse_frameBytes hs hw
    rw [FrameOf.encode_response ⟨hs, hw, hf⟩]
    exact decode_responseTag_eq_ok_iff.mpr ⟨frame, rfl, hd⟩
  | hostOp =>
    obtain ⟨hq, hr⟩ := selector_ne_tag hs
    rw [encode_hostOp hs, List.cons_append, decode_selector hq hr, decodeHostOp_encodeOperands hs]

/-- Settles O2: the first byte selects the space, and each space's decoder reads nothing but the frames or the
operands of its rows. -/
theorem decodeReadsOnlyEncodings : Obligations.DecodeReadsOnlyEncodings := by
  intro bs i rest h
  match bs with
  | [] => cases h
  | op :: bs =>
    by_cases hq : op = requestTag
    · subst hq
      obtain ⟨frame, rfl, hd⟩ := decode_requestTag_eq_ok_iff.mp h
      have hf := frameOf_of_decodeRequest hd
      exact ⟨hf.wellFormed, by rw [hf.encode_request, List.cons_append]⟩
    by_cases hr : op = responseTag
    · subst hr
      obtain ⟨frame, rfl, hd⟩ := decode_responseTag_eq_ok_iff.mp h
      have hf := frameOf_of_decodeResponse hd
      exact ⟨hf.wellFormed, by rw [hf.encode_response, List.cons_append]⟩
    rw [decode_selector hq hr] at h
    obtain ⟨hs, rfl, rfl⟩ := hostOpOf_of_decodeHostOp h
    exact ⟨wellFormed_of_hostOp hs, by rw [encode_hostOp hs, List.cons_append]⟩

/-! ### The layouts -/

/-- Settles O3: the layouts of the rows, and the packing of two bytes. -/
theorem wireFrameLayouts : Obligations.WireFrameLayouts :=
  ⟨toNat_joinBytes,
    fun s ah al nh nl cl ch =>
      ⟨decodeRequest_rdcoilReq s ah al nh nl cl ch, decodeRequest_rdregReq s ah al nh nl cl ch,
        decodeRequest_wrcoilReq s ah al cl ch true, decodeRequest_wrcoilReq s ah al cl ch false⟩,
    fun s ah al fh fl cl ch _ => decodeRequest_wrregReq s ah al fh fl cl ch,
    fun s n cl ch data =>
      ⟨decodeResponse_trailer s 0x01 cl ch (n :: data), decodeResponse_trailer s 0x03 cl ch (n :: data)⟩,
    fun s x0 x1 x2 x3 cl ch =>
      ⟨decodeResponse_trailer s 0x05 cl ch [x0, x1, x2, x3],
        decodeResponse_trailer s 0x10 cl ch [x0, x1, x2, x3]⟩,
    fun s _ cl ch payload => decodeResponse_unknownRsp s cl ch payload⟩

/-- Settles O4: each word is read by the layout of its row, and the table words by evaluation. -/
theorem sampleWordsDecode : Obligations.SampleWordsDecode :=
  ⟨decodeRequest_rdregReq _ _ _ _ _ _ _, decodeRequest_wrcoilReq _ _ _ _ _ true,
    decodeRequest_wrregReq _ _ _ _ _ _ _ (words := [0x4120, 0x0000]) (by decide),
    decodeResponse_trailer 0x01 0x03 0xEF 0xC5 [0x04, 0x41, 0x20, 0x00, 0x00],
    decodeResponse_trailer 0x01 0x10 0x43 0xEC [0x0B, 0x00, 0x00, 0x02],
    rfl, rfl, rfl⟩

end Sys2Proof
end

section
/-! The expected response length of an accepted request (R96): the length its row builds it with. -/

namespace Sys2Proof.Machine

open Host

/-- An enqueue operation that changes the queue appends one request, built for the address at the operation's
time. -/
theorem queue_of_enqueueRequest {a : AddrOperand} {now : Nat} {request : State → U16 → PendingRequest}
    {s t : State} (h : enqueueRequest a now request s = .next t) (hne : t.queue ≠ s.queue) :
    ∃ address, t.queue = s.queue ++ [request { s with clock := now } address] := by
  obtain ⟨-, -, rfl | ⟨address, -, rfl⟩⟩ := enqueueRequest_cases h
  · exact absurd rfl hne
  · obtain e | ⟨-, e⟩ := enqueue_cases (request { s with clock := now } address) { s with clock := now }
    · rw [e] at hne; exact absurd rfl hne
    · exact ⟨address, by rw [e]; rfl⟩

theorem expectedResponseLength_of_enqueueRequest {a : AddrOperand} {now n : Nat}
    {request : State → U16 → PendingRequest} {s t : State}
    (hlen : ∀ u address, (request u address).expectedResponseLength = n)
    (h : enqueueRequest a now request s = .next t) (hne : t.queue ≠ s.queue) :
    ∃ d, t.queue = s.queue ++ [d] ∧ d.expectedResponseLength = n := by
  obtain ⟨address, hq⟩ := queue_of_enqueueRequest h hne
  exact ⟨_, hq, hlen _ _⟩

theorem enqueueRequest_of_execEnqWrreg {a : AddrOperand} {words : List U16} {now : Nat} {s t : State}
    (h : execEnqWrreg a words now s = .next t) :
    enqueueRequest a now (fun s address => requestWrreg s address words now) s = .next t := by
  obtain ⟨-, h⟩ := requireRunning_next h
  split at h
  next => cases h
  next => exact h

/-- Settles O59: each row builds its request with the length it states, whatever the state and the address. -/
theorem expectedResponseLengths : Obligations.ExpectedResponseLengths := by
  intro a x value words now s t hne
  refine ⟨fun h => ?_, fun h => ?_, fun h => ?_, fun h => ?_⟩
  · exact expectedResponseLength_of_enqueueRequest (fun _ _ => rfl) h hne
  · exact expectedResponseLength_of_enqueueRequest (fun _ _ => rfl) h hne
  · exact expectedResponseLength_of_enqueueRequest (fun _ _ => rfl) h hne
  · exact expectedResponseLength_of_enqueueRequest (fun _ _ => rfl) (enqueueRequest_of_execEnqWrreg h) hne

end Sys2Proof.Machine
end

section
/-! The CRC of 40_crc.md. One bit step is linear over XOR and sends only 0 to 0, and so do several: this gives the
byte table (R126) and the zero residue (R125), from which the claims about trailing bytes follow (R128). -/

namespace Sys2Proof.Machine

open Host

/-! ### One bit step -/

theorem crcBit_of_even {v : U16} (h : v[0] = false) : crcBit v = v >>> 1 := by
  simp [crcBit, h]

theorem crcBit_of_odd {v : U16} (h : v[0] = true) : crcBit v = (v >>> 1) ^^^ 0xA001#16 := by
  simp [crcBit, h]

theorem toNat_crcBit (v : U16) :
    (crcBit v).toNat = if v.toNat % 2 = 1 then (v.toNat / 2) ^^^ 0xA001 else v.toNat / 2 := by
  have hbit : v[0] = decide (v.toNat % 2 = 1) := by simp [BitVec.getElem_eq_testBit_toNat]
  by_cases h : v.toNat % 2 = 1
  · rw [crcBit_of_odd (by simpa [h] using hbit), if_pos h]
    simp [Nat.shiftRight_eq_div_pow]
  · rw [crcBit_of_even (by simpa [h] using hbit), if_neg h]
    simp [Nat.shiftRight_eq_div_pow]

/-- The bit step is linear: of two operands both with bit 0 set, the two copies of the polynomial cancel. -/
theorem crcBit_xor (v w : U16) : crcBit (v ^^^ w) = crcBit v ^^^ crcBit w := by
  have hbit : (v ^^^ w)[0] = (v[0] ^^ w[0]) := BitVec.getElem_xor ..
  have hshift : (v ^^^ w) >>> 1 = v >>> 1 ^^^ w >>> 1 := BitVec.ushiftRight_xor_distrib ..
  cases hv : v[0] <;> cases hw : w[0] <;> rw [hv, hw] at hbit
  case false.false => rw [crcBit_of_even hbit, crcBit_of_even hv, crcBit_of_even hw, hshift]
  case false.true => rw [crcBit_of_odd hbit, crcBit_of_even hv, crcBit_of_odd hw, hshift, BitVec.xor_assoc]
  case true.false =>
    rw [crcBit_of_odd hbit, crcBit_of_odd hv, crcBit_of_even hw, hshift]
    ac_rfl
  case true.true =>
    calc crcBit (v ^^^ w)
        = v >>> 1 ^^^ w >>> 1 ^^^ (0xA001#16 ^^^ 0xA001#16) := by
          rw [crcBit_of_even hbit, hshift, BitVec.xor_self, BitVec.xor_zero]
      _ = crcBit v ^^^ crcBit w := by
          rw [crcBit_of_odd hv, crcBit_of_odd hw]
          ac_rfl

/-- The bit shifted out is not lost: bit 15 of the polynomial keeps it. -/
theorem getElem_crcBit_fifteen (v : U16) : (crcBit v)[15] = v[0] := by
  cases h : v[0]
  · simp [crcBit_of_even h]
  · simp [crcBit_of_odd h]

theorem crcBit_eq_zero_iff {v : U16} : crcBit v = 0 ↔ v = 0 := by
  refine ⟨fun h => ?_, fun h => by rw [h]; rfl⟩
  have heven : v[0] = false := by rw [← getElem_crcBit_fifteen, h]; rfl
  have hhalf : v >>> 1 = 0 := by rw [← crcBit_of_even heven, h]
  ext i hi
  cases i with
  | zero => simpa using heven
  | succ i => simpa [Nat.add_comm, hi] using congrArg (·.getLsbD i) hhalf

/-! ### Several bit steps -/

theorem crcBit_iterate_xor (n : Nat) (v w : U16) : crcBit^[n] (v ^^^ w) = crcBit^[n] v ^^^ crcBit^[n] w :=
  Function.Semiconj₂.iterate crcBit_xor n v w

theorem crcBit_iterate_eq_zero_iff (n : Nat) {v : U16} : crcBit^[n] v = 0 ↔ v = 0 := by
  induction n with
  | zero => rfl
  | succ n ih => rw [Function.iterate_succ_apply', crcBit_eq_zero_iff, ih]

/-- As long as only zero bits are shifted out, the bit steps are a shift. -/
theorem crcBit_iterate_eq_ushiftRight (n : Nat) {v : U16} (h : ∀ i < n, v.getLsbD i = false) :
    crcBit^[n] v = v >>> n := by
  induction n generalizing v with
  | zero => simp
  | succ n ih =>
    have heven : v[0] = false := h 0 n.succ_pos
    have hrest : ∀ i < n, (v >>> 1).getLsbD i = false := fun i hi => by
      simpa [Nat.add_comm] using h (i + 1) (by omega)
    rw [Function.iterate_succ_apply, crcBit_of_even heven, ih hrest, ← BitVec.shiftRight_add, Nat.add_comm]

/-- A byte in bits 15:8 arrives in bits 7:0 after eight bit steps. -/
theorem crcBit_iterate_eight_shiftLeft (b : Byte) : crcBit^[8] (b.setWidth 16 <<< 8) = b.setWidth 16 := by
  rw [crcBit_iterate_eq_ushiftRight 8 fun i hi => by simp [hi]]
  ext i hi
  grind

/-- A value is its low byte and its high byte; XOR separates what eight bit steps do to them. -/
theorem crcBit_iterate_eight (v : U16) : crcBit^[8] v = (v >>> 8) ^^^ crcTable (v.setWidth 8) := by
  have hsplit : v = ((v >>> 8).setWidth 8).setWidth 16 <<< 8 ^^^ (v.setWidth 8).setWidth 16 := by
    ext i hi
    grind
  have hhigh : ((v >>> 8).setWidth 8).setWidth 16 = v >>> 8 := by
    ext i hi
    grind
  calc crcBit^[8] v
      = crcBit^[8] (((v >>> 8).setWidth 8).setWidth 16 <<< 8) ^^^ crcBit^[8] ((v.setWidth 8).setWidth 16) := by
        rw [← crcBit_iterate_xor, ← hsplit]
    _ = (v >>> 8) ^^^ crcTable (v.setWidth 8) := by
        rw [crcBit_iterate_eight_shiftLeft, hhigh, crcTable]

/-! ### Bytes -/

/-- Two byte steps are sixteen bit steps on the value XORed with both bytes. -/
theorem crcByte_crcByte (c : U16) (l h : Byte) :
    crcByte (crcByte c l) h = crcBit^[16] (c ^^^ joinBytes h l) := by
  have hjoin : joinBytes h l = l.setWidth 16 ^^^ h.setWidth 16 <<< 8 := by
    ext i hi
    grind [joinBytes]
  rw [Function.iterate_add_apply crcBit 8 8, hjoin, ← BitVec.xor_assoc, crcBit_iterate_xor 8 (_ ^^^ _),
    crcBit_iterate_eight_shiftLeft, crcByte, crcByte]

theorem crcByte_zero_eq_zero_iff {b : Byte} : crcByte 0 b = 0 ↔ b = 0 := by
  rw [crcByte, crcBit_iterate_eq_zero_iff]
  exact ⟨fun h => by simpa using congrArg (BitVec.setWidth 8) h, fun h => by rw [h]; rfl⟩

theorem crcFrom_zero_replicate (n : Nat) : crcFrom 0 (List.replicate n 0x00) = 0 := by
  induction n with
  | zero => rfl
  | succ n ih => exact ih

/-! ### CRC.CHECK and the residue -/

/-- A sequence of at least two bytes is valid exactly when its residue is 0 (R125). -/
theorem crcCheck_eq_residue {F : Bytes} (hF : 2 ≤ F.length) : crcCheck F = some (crc16 F == 0) := by
  obtain ⟨B, l, h, rfl⟩ := exists_trailer hF
  have hres : crc16 (B ++ [l, h]) = crcBit^[16] (crc16 B ^^^ joinBytes h l) := by
    rw [crc16_append, ← crcByte_crcByte]; rfl
  rw [crcCheck_trailer, hres, Option.some_inj, Bool.eq_iff_iff, beq_iff_eq, beq_iff_eq, crcBit_iterate_eq_zero_iff]
  exact BitVec.xor_eq_zero_iff.symm

theorem crcCheck_eq_none {F : Bytes} (h : F.length < 2) : crcCheck F = none := by
  match F, h with
  | [], _ => rfl
  | [_], _ => rfl

theorem two_le_length_of_crcCheck {F : Bytes} {v : Bool} (h : crcCheck F = some v) : 2 ≤ F.length := by
  by_contra hF
  rw [crcCheck_eq_none (by omega)] at h
  cases h

/-- The residue of a valid frame is 0, so CRC.CHECK of a longer sequence runs on the added bytes alone. -/
theorem crcCheck_append_of_valid {F : Bytes} (h : crcCheck F = some true) (C : Bytes) :
    crcCheck (F ++ C) = some (crcFrom 0 C == 0) := by
  have hF := two_le_length_of_crcCheck h
  have hres : crc16 F = 0 := by simpa [crcCheck_eq_residue hF] using h
  rw [crcCheck_eq_residue (by rw [List.length_append]; omega), crc16_append, hres]

/-! ### What the residue and the byte step say of frames -/

/-- Settles O10: CRC.CHECK compares the residue with 0. -/
theorem zeroResidueIffValid : Obligations.ZeroResidueIffValid := by
  intro F hF
  rw [crcCheck_eq_residue hF, Option.some_inj, beq_iff_eq]

/-- Settles O11: the byte is XORed into the low half, so the high half is the running value's own. -/
theorem byteTableForm : Obligations.ByteTableForm := by
  refine ⟨fun c b => ?_, by decide, by decide, by decide, by decide, by decide, by decide⟩
  have hhigh : (c ^^^ b.setWidth 16) >>> 8 = c >>> 8 := by
    ext i hi
    simp
  rw [crcByte, crcBit_iterate_eight, hhigh]

/-- Settles O12: from the residue 0 of a valid frame, zero bytes keep it 0 and any other byte does not. -/
theorem trailingZerosKeepValid : Obligations.TrailingZerosKeepValid := by
  intro F hF
  refine ⟨fun n => ?_, fun b hb => ?_⟩
  · rw [crcCheck_append_of_valid hF, crcFrom_zero_replicate]; rfl
  · have hres : crcFrom 0 [b] ≠ 0 := mt crcByte_zero_eq_zero_iff.mp hb
    rw [crcCheck_append_of_valid hF, beq_false_of_ne hres]

/-- Settles O9: the lemma about CRC.CHECK of what CRC.APPEND makes. -/
theorem crcRoundTrip : Obligations.CrcRoundTrip := crcCheck_crcAppend

/-! ### The pure functions as operations -/

section
variable {s : State} (hm : s.mode = .running)
include hm

theorem exec_crc16 (B : Bytes) : exec (.crc16 B) s = .next (answer (.word (crc16 B)) s) := by
  rw [exec, execCrc16, requireRunning_running hm]

theorem exec_crcAppend (B : Bytes) : exec (.crcAppend B) s = .next (answer (.bytes (crcAppend B)) s) := by
  rw [exec, execCrcAppend, requireRunning_running hm]

theorem exec_crcCheck_of_some {F : Bytes} {v : Bool} (h : crcCheck F = some v) :
    exec (.crcCheck F) s = .next (answer (.bool v) s) := by
  rw [exec, execCrcCheck, requireRunning_running hm, h]

theorem exec_crcCheck_of_none {F : Bytes} (h : crcCheck F = none) :
    exec (.crcCheck F) s = .refused .checkTooShort := by
  rw [exec, execCrcCheck, requireRunning_running hm, h]

theorem exec_frameDecode_of_none {B : Bytes} (h : frameDecode s.slaveId B = none) :
    exec (.frameDecode B) s = .refused .frameTooShort := by
  rw [exec, execFrameDecode, requireRunning_running hm, h]

theorem exec_w2f_of_none {B : Bytes} (h : w2f B = none) : exec (.w2f B) s = .refused .notFourBytes := by
  rw [exec, execW2f, requireRunning_running hm, h]

end

/-- Settles O6: the bit step as arithmetic, the fold of byte steps, and the answer to the caller. -/
theorem crc16RunsTheBitSerialAlgorithm : Obligations.Crc16RunsTheBitSerialAlgorithm := by
  refine ⟨toNat_crcBit, rfl, fun B b => ?_, rfl, rfl, rfl, rfl, rfl, rfl, rfl, fun B s hm => exec_crc16 hm B⟩
  rw [crc16_append]; rfl

/-- Settles O7: the two bytes of the trailer are the halves of the checksum. -/
theorem crcAppendCompletes : Obligations.CrcAppendCompletes :=
  ⟨fun B _ hm => exec_crcAppend hm B, by decide +kernel, by decide +kernel⟩

/-- Settles O8: the comparison of the trailer on all 16 bits is one of its value. -/
theorem crcCheckCompletes : Obligations.CrcCheckCompletes := by
  intro B l h s hm
  rw [exec_crcCheck_of_some hm (crcCheck_trailer B l h), beq_joinBytes]
  rfl

theorem frameDecode_eq_none (slaveId : Byte) {B : Bytes} (h : B.length < 4) : frameDecode slaveId B = none := by
  match B with
  | [] => rfl
  | [_] => rfl
  | _ :: _ :: _ => exact if_pos h

theorem w2f_eq_none {B : Bytes} (h : B.length ≠ 4) : w2f B = none := by
  unfold w2f
  split
  next => exact absurd rfl h
  next => rfl

/-- Settles O19: each of the three functions has no value on the inputs its rule leaves out. -/
theorem shortInputsRefused : Obligations.ShortInputsRefused :=
  ⟨fun _ _ hm h => exec_crcCheck_of_none hm (crcCheck_eq_none h),
    fun _ s hm h => exec_frameDecode_of_none hm (frameDecode_eq_none s.slaveId h),
    fun _ _ hm h => exec_w2f_of_none hm (w2f_eq_none h)⟩

end Sys2Proof.Machine
end

section
/-! The frame codec of 41_frame_codec.md. A byte step is injective in the running value and in the byte, so one
changed byte changes the residue of a frame and DECODE reports it (R153). -/

namespace Sys2Proof.Machine

open Host

/-! ### One changed byte changes the checksum -/

theorem crcBit_injective : Function.Injective crcBit := by
  intro v w h
  have hxor : crcBit (v ^^^ w) = 0 := by rw [crcBit_xor, h, BitVec.xor_self]; rfl
  exact BitVec.xor_eq_zero_iff.mp (crcBit_eq_zero_iff.mp hxor)

theorem crcByte_injective_left (b : Byte) : Function.Injective (crcByte · b) := fun _ _ h =>
  (BitVec.xor_left_inj _).mp (crcBit_injective.iterate 8 h)

theorem crcByte_injective_right (c : U16) : Function.Injective (crcByte c) := by
  intro a b h
  have hwide : a.setWidth 16 = b.setWidth 16 := (BitVec.xor_right_inj c).mp (crcBit_injective.iterate 8 h)
  simpa using congrArg (BitVec.setWidth 8) hwide

theorem crcFrom_injective (B : Bytes) : Function.Injective (crcFrom · B) := by
  induction B with
  | nil => exact fun _ _ h => h
  | cons b B ih => exact ih.comp (crcByte_injective_left b)

theorem crc16_append_cons_inj {A C : Bytes} {a b : Byte} : crc16 (A ++ a :: C) = crc16 (A ++ b :: C) ↔ a = b := by
  refine ⟨fun h => ?_, fun h => by rw [h]⟩
  rw [crc16_append, crc16_append] at h
  exact crcByte_injective_right _ (crcFrom_injective C h)

/-- CRC.CHECK finds any change of one byte of a valid frame. -/
theorem crcCheck_modify_of_valid {F : Bytes} (h : crcCheck F = some true) {i : Nat} (hi : i < F.length)
    {f : Byte → Byte} (hf : ∀ b, f b ≠ b) : crcCheck (F.modify i f) = some false := by
  have hF := two_le_length_of_crcCheck h
  have hres : crc16 F = 0 := by simpa [crcCheck_eq_residue hF] using h
  obtain ⟨A, b, C, rfl, -, hmod⟩ := List.exists_of_modify f hi
  have hne : crc16 (A ++ f b :: C) ≠ 0 := by
    rw [← hres]
    exact mt crc16_append_cons_inj.mp (hf b)
  rw [crcCheck_eq_residue (by simpa using hF), hmod, beq_false_of_ne hne]

theorem xor_one_shiftLeft_ne {k : Nat} (hk : k < 8) (b : Byte) : b ^^^ (1#8 <<< k) ≠ b := by
  intro h
  have hbit := congrArg (·.getLsbD k) h
  simp [hk] at hbit

theorem crcCheck_flipBit {F : Bytes} (h : crcCheck F = some true) {i k : Nat} (hi : i < F.length) (hk : k < 8) :
    crcCheck (flipBit i k F) = some false :=
  crcCheck_modify_of_valid h hi (xor_one_shiftLeft_ne hk)

/-! ### DECODE, by what CRC.CHECK answers -/

theorem frameDecode_of_invalid (slaveId : Byte) {B : Bytes} (hlen : 4 ≤ B.length) (h : crcCheck B = some false) :
    frameDecode slaveId B = some .checksumError := by
  match B with
  | sid :: fc :: rest => rw [frameDecode, if_neg (Nat.not_lt.mpr hlen), h]

theorem frameDecode_of_valid (slaveId : Byte) {sid fc l h : Byte} {P : Bytes}
    (hv : crcCheck ([sid, fc] ++ P ++ [l, h]) = some true) :
    frameDecode slaveId ([sid, fc] ++ P ++ [l, h]) =
      some (if sid = slaveId then .ok sid fc P else .notForUs) := by
  have hcrc : crcCheck (sid :: fc :: (P ++ [l, h])) = some true := hv
  have hpayload : (P ++ [l, h]).take ((P ++ [l, h]).length - 2) = P := by simp
  change frameDecode slaveId (sid :: fc :: (P ++ [l, h])) = _
  rw [frameDecode, if_neg (by simp), hcrc, hpayload]
  exact (apply_ite some (sid = slaveId) _ _).symm

/-- DECODE of a sequence taken apart: the checksum first, then the slave id (R141, R142). -/
theorem frameDecode_trailer (slaveId sid fc l h : Byte) (P : Bytes) :
    frameDecode slaveId ([sid, fc] ++ P ++ [l, h]) =
      some (if (crc16 ([sid, fc] ++ P)).toNat ≠ h.toNat * 256 + l.toNat then .checksumError
        else if sid = slaveId then .ok sid fc P else .notForUs) := by
  have hcheck := crcCheck_trailer ([sid, fc] ++ P) l h
  rw [beq_joinBytes] at hcheck
  by_cases heq : (crc16 ([sid, fc] ++ P)).toNat = h.toNat * 256 + l.toNat
  · rw [if_neg (not_not.mpr heq), frameDecode_of_valid slaveId (by rw [hcheck, decide_eq_true heq])]
  · rw [if_pos heq, frameDecode_of_invalid slaveId (by simp) (by rw [hcheck, decide_eq_false heq])]

/-! ### Encoded frames -/

theorem frameEncode_eq (sid fc : Byte) (parts : List Bytes) :
    frameEncode sid fc parts = [sid, fc] ++ parts.flatten ++
      [lo8 (crc16 ([sid, fc] ++ parts.flatten)), hi8 (crc16 ([sid, fc] ++ parts.flatten))] := rfl

theorem crcCheck_frameEncode (sid fc : Byte) (parts : List Bytes) :
    crcCheck (frameEncode sid fc parts) = some true := crcCheck_crcAppend _

/-- Settles O15: an encoded frame has a valid checksum, so DECODE looks at the slave id. -/
theorem frameRoundTrip : Obligations.FrameRoundTrip := by
  intro slaveId sid fc parts
  have hvalid := crcCheck_frameEncode sid fc parts
  rw [frameEncode_eq] at hvalid ⊢
  exact frameDecode_of_valid slaveId hvalid

/-- Settles O16: a flipped bit changes one byte of a valid frame and leaves its length. -/
theorem singleBitErrorDetected : Obligations.SingleBitErrorDetected := by
  intro slaveId sid fc parts i k hi hk
  have hlen : 4 ≤ (flipBit i k (frameEncode sid fc parts)).length := by simp [flipBit, frameEncode_eq]
  exact frameDecode_of_invalid slaveId hlen (crcCheck_flipBit (crcCheck_frameEncode sid fc parts) hi hk)

/-! ### ADDR -/

theorem ofInt_eq_iff_of_range {v : Int} (h0 : 0 ≤ v) (h1 : v ≤ 0xFFFF) (a : U16) :
    BitVec.ofInt 16 v = a ↔ (a.toNat : Int) = v := by
  rw [← BitVec.toNat_inj, BitVec.toNat_ofInt]
  omega

theorem addr_int_eq_some_iff {v : Int} {a : U16} :
    addr (.int v) = some a ↔ 0 ≤ v ∧ v ≤ 0xFFFF ∧ (a.toNat : Int) = v := by
  rw [addr, Option.ite_none_right_eq_some, Option.some_inj, and_assoc]
  exact and_congr_right fun h0 => and_congr_right fun h1 => ofInt_eq_iff_of_range h0 h1 a

theorem addr_pair_eq_some_iff {h l : Int} {a : U16} : addr (.pair h l) = some a ↔
    0 ≤ h ∧ h ≤ 0xFF ∧ 0 ≤ l ∧ l ≤ 0xFF ∧ (a.toNat : Int) = h * 256 + l := by
  have hrange : (0 ≤ h ∧ h ≤ 0xFF ∧ 0 ≤ l ∧ l ≤ 0xFF) → (BitVec.ofInt 16 (h * 256 + l) = a ↔
      (a.toNat : Int) = h * 256 + l) := fun ⟨h0, h1, l0, l1⟩ =>
    ofInt_eq_iff_of_range (by omega) (by omega) a
  rw [addr, Option.ite_none_right_eq_some, Option.some_inj, and_congr_right hrange]
  simp only [and_assoc]

/-- Settles O20: in range, the 16 bits hold the integer itself. -/
theorem addressNormaliser : Obligations.AddressNormaliser :=
  ⟨fun _ _ => addr_int_eq_some_iff, fun _ _ _ => addr_pair_eq_some_iff, rfl⟩

/-! ### ENCODE and DECODE as operations -/

section
variable {s : State} (hm : s.mode = .running)
include hm

theorem exec_frameEncode (sid fc : Byte) (parts : List Bytes) :
    exec (.frameEncode sid fc parts) s = .next (answer (.bytes (frameEncode sid fc parts)) s) := by
  rw [exec, execFrameEncode, requireRunning_running hm]

theorem exec_frameDecode_of_some {B : Bytes} {r : DecodeResult} (h : frameDecode s.slaveId B = some r) :
    exec (.frameDecode B) s = .next (answer (.decoded r) s) := by
  rw [exec, execFrameDecode, requireRunning_running hm, h]

end

/-- Settles O13: the frame is its fields, the parts and the trailer, and goes to the caller. -/
theorem encodeCompletes : Obligations.EncodeCompletes :=
  ⟨fun sid fc parts _ hm => exec_frameEncode hm sid fc parts, by decide +kernel⟩

/-- Settles O14: what DECODE makes of a sequence taken apart goes to the caller. -/
theorem decodeCompletes : Obligations.DecodeCompletes := by
  refine ⟨fun sid fc l h P s hm => ?_, by decide +kernel⟩
  rw [exec_frameDecode_of_some hm (frameDecode_trailer s.slaveId sid fc l h P), ← ite_not (sid = s.slaveId)]
  rfl

end Sys2Proof.Machine
end

section
/-! The Float Codec of 42_float_codec.md. The bytes of the two words F2W gives are the four bytes of the pattern,
and W2F joins exactly those, so both directions are the identity on the 32 bits (R172). -/

namespace Sys2Proof.Machine

/-! ### The words of F2W -/

theorem toNat_f2w_fst (x : U32) : (f2w x).1.toNat = x.toNat / 65536 := by
  have hlt : x.toNat / 65536 < 2 ^ 16 := by have := x.isLt; omega
  simpa [f2w, Nat.shiftRight_eq_div_pow] using hlt

theorem toNat_f2w_snd (x : U32) : (f2w x).2.toNat = x.toNat % 65536 := by simp [f2w]

/-- Bits taken from a field of a pattern are bits of the pattern, from the sum of the two starts. -/
theorem extractLsb'_extractLsb' {n start len start' len' : Nat} (x : BitVec n) (h : start + len ≤ len') :
    (x.extractLsb' start' len').extractLsb' start len = x.extractLsb' (start' + start) len := by
  ext i hi
  have hlt : start + i < len' := by omega
  simp [hlt, Nat.add_assoc]

/-- The words, each high byte first, are the pattern's bytes, most significant first. -/
theorem be16_f2w_append (x : U32) : be16 (f2w x).1 ++ be16 (f2w x).2 = be32 x := by
  simp [be16, be32, f2w, hi8, lo8, extractLsb'_extractLsb']

/-! ### The pattern of W2F -/

theorem w2f_be32 (x : U32) : w2f (be32 x) = some x := by
  have hread := decU32_be32 x []
  simp only [be32, List.cons_append, List.nil_append, decU32, Except.ok.injEq, Prod.mk.injEq, and_true] at hread
  exact congrArg some hread

/-- Settles O18: the bytes of the words are those of the pattern, which W2F and be32 carry to each other. -/
theorem floatRoundTrip : Obligations.FloatRoundTrip := by
  refine ⟨fun x => ?_, fun b hb => ?_⟩
  · rw [be16_f2w_append, w2f_be32]
  · obtain ⟨b0, b1, b2, b3, rfl⟩ := List.length_eq_four.mp hb
    exact ⟨joinBytes4 b0 b1 b2 b3, rfl, by rw [be16_f2w_append, be32_joinBytes4]⟩

/-! ### F2W and W2F as operations -/

section
variable {s : State} (hm : s.mode = .running)
include hm

theorem exec_f2w (x : U32) : exec (.f2w x) s = .next (answer (.words (f2w x).1 (f2w x).2) s) := by
  rw [exec, execF2w, requireRunning_running hm]

theorem exec_w2f_of_some {B : Bytes} {x : U32} (h : w2f B = some x) :
    exec (.w2f B) s = .next (answer (.pattern x) s) := by
  rw [exec, execW2f, requireRunning_running hm, h]

end

/-- Settles O17: the words are the quotient and the remainder by 65536, the pattern the sum of the weighted bytes,
and each goes to the caller. -/
theorem floatCodecCompletes : Obligations.FloatCodecCompletes :=
  ⟨fun x _ hm => ⟨(f2w x).1, (f2w x).2, toNat_f2w_fst x, toNat_f2w_snd x, exec_f2w hm x⟩,
    fun b0 b1 b2 b3 _ hm => ⟨joinBytes4 b0 b1 b2 b3, toNat_joinBytes4 b0 b1 b2 b3, exec_w2f_of_some hm rfl⟩⟩

end Sys2Proof.Machine
end

section
/-! The request queue and the dispatcher of 43_queue_dispatcher.md. The four enqueue operations differ in the
descriptor they build alone, so what each answers is said once (R180, R181); a TICK dispatches, times out or does
nothing, each under its own condition (R190). -/

namespace Sys2Proof.Machine

open Host

/-! ### The conditions of an operation -/

section
variable {s : State}

theorem queueFull_unbounded (h : s.cfg.queueDepth = none) : queueFull s = false := by
  simp only [queueFull, h]

theorem queueFull_iff {n : Nat} (h : s.cfg.queueDepth = some n) : queueFull s = true ↔ n ≤ s.queue.length := by
  simp only [queueFull, h, decide_eq_true_eq]

theorem overflowsBuffer_unbounded (h : s.cfg.rxCapacity = none) (chunk : Bytes) :
    overflowsBuffer chunk s = false := by
  simp only [overflowsBuffer, h]

theorem overflowsBuffer_iff {n : Nat} (h : s.cfg.rxCapacity = some n) (chunk : Bytes) :
    overflowsBuffer chunk s = true ↔ n < (s.receiveBuffer ++ chunk).length := by
  simp only [overflowsBuffer, h, decide_eq_true_eq, List.length_append]

/-- The spacing test in the words of R190: nothing sent since reset, or at least T_GAP elapsed. -/
theorem spacingPassed_iff {now : Nat} : spacingPassed now s = true ↔
    s.lastSendTime = none ∨ ∃ t, s.lastSendTime = some t ∧ s.cfg.tGap ≤ elapsed s.cfg now t := by
  cases h : s.lastSendTime <;> simp [spacingPassed, h]

theorem windowClosed_iff {now t : Nat} : windowClosed now t s = true ↔ 5000 < elapsed s.cfg now t := by
  rw [windowClosed, decide_eq_true_iff, tTimeout]

end

/-- Settles O58: each clause is the lemma about its condition. -/
theorem conditionsAdmit : Obligations.ConditionsAdmit := fun _ =>
  ⟨queueFull_unbounded, fun _ => queueFull_iff, fun _ => timeAccepted_iff, overflowsBuffer_unbounded,
    fun _ chunk h => overflowsBuffer_iff h chunk⟩

/-! ### The descriptors of the two write requests, byte by byte -/

section
variable (s : State) (address : U16) (now : Nat)

theorem requestWrcoil_eq (value : Bool) : requestWrcoil s address value now =
    { address := address, objectKind := .coil, operation := .write
      outgoingFrame := crcAppend [s.slaveId, 0x05, hi8 address, lo8 address, if value then 0xFF else 0x00, 0x00]
      expectedResponseLength := 8, enqueuedAt := wrapTime s.cfg now } := by
  cases value <;> rfl

theorem requestWrreg_eq (words : List U16) {f : U16} (hf : f = field16 s.cfg.wrregField16 words.length) :
    requestWrreg s address words now =
    { address := address, objectKind := .register, operation := .write
      outgoingFrame := crcAppend ([s.slaveId, 0x10, hi8 address, lo8 address, hi8 f, lo8 f,
        BitVec.ofNat 8 (2 * words.length)] ++ words.flatMap fun w => [hi8 w, lo8 w])
      expectedResponseLength := 8, enqueuedAt := wrapTime s.cfg now } := by
  rw [requestWrreg, frameEncode, List.flatten_singleton, hf]
  rfl

end

/-- The 16-bit field of a WriteRegister request, form by form of WRREG_FIELD16 (R148, D7): with at most 127 words
no form is cut off at 16 bits, and a table has an entry. -/
theorem field16_spec {p : Field16} {k : Nat} (hk : k ≤ 127) :
    (p = .registerCount → (field16 p k).toNat = k) ∧
    (p = .byteCount → (field16 p k).toNat = 2 * k) ∧
    (∀ values, p = .table values → values[k]? = some (field16 p k)) := by
  refine ⟨fun h => ?_, fun h => ?_, fun values h => ?_⟩ <;> by_contra hne
  · exact field16_ne hk (.inl ⟨h, hne⟩) rfl
  · exact field16_ne hk (.inr (.inl ⟨h, hne⟩)) rfl
  · exact field16_ne hk (.inr (.inr ⟨values, h, hne⟩)) rfl

/-! ### What an enqueue operation answers -/

/-- The refusal of an enqueue operation while Refused and, at an accepted time, the three ways it completes: by
the address and the room in the queue, for any descriptor. -/
theorem enqueueRequest_spec (a : AddrOperand) (now : Nat) (request : State → U16 → PendingRequest) (s : State) :
    (s.mode = .refused → enqueueRequest a now request s = .refused .notRunning) ∧
    (s.mode = .running → timeAccepted now s = true →
      (∀ address, addr a = some address → queueFull s = false →
        enqueueRequest a now request s = .next (answer .ok { s with
          clock := now
          queue := s.queue ++ [request { s with clock := now } address] })) ∧
      (addr a = none → enqueueRequest a now request s = .next (raise .invalidAddress { s with clock := now })) ∧
      (∀ address, addr a = some address → queueFull s = true →
        enqueueRequest a now request s = .next (raise .queueFull { s with clock := now }))) := by
  refine ⟨fun hm => requireRunning_refused hm, fun hm ht => ?_⟩
  rw [enqueueRequest, requireRunning_running hm, atTime_accepted ht]
  refine ⟨fun address ha hroom => ?_, fun ha => by rw [ha], fun address ha hfull => ?_⟩
  · rw [ha]
    exact congrArg Outcome.next (enqueue_room hroom)
  · rw [ha]
    exact congrArg Outcome.next (enqueue_full hfull)

/-- Settles O24: with at most 127 words ENQ.WRREG is an enqueue operation like the other three, and the field is
the one WRREG_FIELD16 gives. -/
theorem enqWrregAppends : Obligations.EnqWrregAppends := by
  intro a words now s
  refine ⟨fun hm => refusedModeRefusesOperations _ s hm nofun, fun hm ht hw => ?_⟩
  have he : exec (.enqWrreg a words now) s =
      enqueueRequest a now (fun s address => requestWrreg s address words now) s :=
    execEnqWrreg_of_length_le a now hm hw
  rw [he]
  obtain ⟨happend, hbad, hfull⟩ :=
    (enqueueRequest_spec a now (fun s address => requestWrreg s address words now) s).2 hm ht
  refine ⟨fun address ha hroom => ?_, hbad, hfull⟩
  obtain ⟨hcount, hbytes, htable⟩ := field16_spec (p := s.cfg.wrregField16) hw
  refine ⟨_, hcount, hbytes, htable, ?_⟩
  rw [happend address ha hroom, requestWrreg_eq _ address now words rfl]
  rfl

/-- Settles O21: the enqueue operation with the descriptor of ENQ.RDCOIL, whose frame unfolds to the bytes stated. -/
theorem enqRdcoilAppends : Obligations.EnqRdcoilAppends := fun a count now s =>
  enqueueRequest_spec a now (fun s address => requestRdcoil s address count now) s

/-- Settles O22: the enqueue operation with the descriptor of ENQ.RDREG, whose frame unfolds to the bytes stated. -/
theorem enqRdregAppends : Obligations.EnqRdregAppends := fun a n now s =>
  enqueueRequest_spec a now (fun s address => requestRdreg s address n now) s

/-- Settles O23: as O21 and O22, once the value is known and with it the value bytes. -/
theorem enqWrcoilAppends : Obligations.EnqWrcoilAppends := by
  intro a value now s
  cases value with
  | true => exact enqueueRequest_spec a now (fun s address => requestWrcoil s address true now) s
  | false => exact enqueueRequest_spec a now (fun s address => requestWrcoil s address false now) s

/-! ### The request rows -/

theorem requestFrame_built {frame : Bytes} {request : State → PendingRequest} {s : State}
    (hm : s.mode = .running) (h : (request s).outgoingFrame = frame) :
    requestFrame frame request s = .next (enqueue (request s) s) := by
  rw [requestFrame, requireRunning_running hm, if_pos h]

section
variable {s : State} (hm : s.mode = .running) (address : U16)
include hm

theorem exec_rdcoilReq_built (count : U16) :
    exec (.rdcoilReq s.slaveId address count
      (crc16 [s.slaveId, 0x01, hi8 address, lo8 address, hi8 count, lo8 count])) s =
    .next (enqueue (requestRdcoil s address count s.clock) s) := by
  rw [exec, execRdcoilReq]
  exact requestFrame_built hm rfl

theorem exec_rdregReq_built (n : U16) :
    exec (.rdregReq s.slaveId address n
      (crc16 [s.slaveId, 0x03, hi8 address, lo8 address, hi8 n, lo8 n])) s =
    .next (enqueue (requestRdreg s address n s.clock) s) := by
  rw [exec, execRdregReq]
  exact requestFrame_built hm rfl

theorem exec_wrcoilReq_built (value : Bool) :
    exec (.wrcoilReq s.slaveId address value
      (crc16 [s.slaveId, 0x05, hi8 address, lo8 address, if value then 0xFF else 0x00, 0x00])) s =
    .next (enqueue (requestWrcoil s address value s.clock) s) := by
  rw [exec, execWrcoilReq]
  exact requestFrame_built hm (by cases value <;> rfl)

theorem exec_wrregReq_built {f : U16} {words : List U16} (hw : words.length ≤ 127)
    (hf : f = field16 s.cfg.wrregField16 words.length) :
    exec (.wrregReq s.slaveId address f words
      (crc16 ([s.slaveId, 0x10, hi8 address, lo8 address, hi8 f, lo8 f,
        BitVec.ofNat 8 (2 * words.length)] ++ words.flatMap fun w => [hi8 w, lo8 w]))) s =
    .next (enqueue (requestWrreg s address words s.clock) s) :=
  (execWrregReq_of_length_le s.slaveId address f _ hm hw).trans
    (requestFrame_built hm (by rw [requestWrreg_eq s address s.clock words hf]; rfl))

end

/-- Settles O27: a row whose frame this engine builds enqueues its request, and ENQUEUE appends or raises. -/
theorem requestRowsEnqueue : Obligations.RequestRowsEnqueue := by
  intro s hm
  refine ⟨fun hroom => ⟨fun address count => ⟨?rdcoil, ?rdreg⟩, fun address value => ?wrcoil,
    fun address f words hw hf => ?wrreg⟩, fun hfull i hi => ?full⟩
  case rdcoil => rw [exec_rdcoilReq_built hm, enqueue_room hroom]; rfl
  case rdreg => rw [exec_rdregReq_built hm, enqueue_room hroom]; rfl
  case wrcoil => rw [exec_wrcoilReq_built hm, enqueue_room hroom, requestWrcoil_eq]; rfl
  case wrreg => rw [exec_wrregReq_built hm address hw hf, enqueue_room hroom, requestWrreg_eq _ _ _ _ hf]; rfl
  case full =>
    obtain ⟨address, count, rfl⟩ | ⟨address, count, rfl⟩ | ⟨address, value, rfl⟩ |
      ⟨address, f, words, hw, hf, rfl⟩ := hi
    · rw [exec_rdcoilReq_built hm, enqueue_full hfull]; rfl
    · rw [exec_rdregReq_built hm, enqueue_full hfull]; rfl
    · rw [exec_wrcoilReq_built hm, enqueue_full hfull]; rfl
    · rw [exec_wrregReq_built hm address hw hf, enqueue_full hfull]; rfl

/-! ### TICK -/

theorem timeoutStep_closed {now t : Nat} {s : State} {r : PendingRequest} (hf : s.inFlight = some r)
    (hl : s.lastSendTime = some t) (hw : windowClosed now t s = true) :
    timeoutStep now s = emit (.error .timeout (.address r.address)) { s with inFlight := none } := by
  simp only [timeoutStep, hf, hl, hw, if_true]

section
variable {s : State} {now : Nat} (hm : s.mode = .running) (ht : timeAccepted now s = true)
include hm ht

theorem exec_tick : exec (.tick now) s = .next (timeoutStep now (dispatchStep now { s with clock := now })) := by
  rw [exec, execTick, requireRunning_running hm, atTime_accepted ht]

/-- The dispatch of a TICK; the timeout step that follows finds no time elapsed. -/
theorem exec_tick_dispatches {r : PendingRequest} {rest : List PendingRequest} (hf : s.inFlight = none)
    (hq : s.queue = r :: rest) (hs : spacingPassed now s = true) :
    exec (.tick now) s = .next (act (.write r.outgoingFrame) { s with
      clock := now, queue := rest, inFlight := some r, lastSendTime := some (wrapTime s.cfg now) }) := by
  have hd := dispatchStep_head (s := { s with clock := now }) hf hq hs
  rw [exec_tick hm ht, hd, timeoutStep_after_dispatch]

/-- The timeout of a TICK; the dispatch step before it finds a request in flight. -/
theorem exec_tick_timesOut {r : PendingRequest} {t : Nat} (hf : s.inFlight = some r)
    (hl : s.lastSendTime = some t) (hw : windowClosed now t s = true) :
    exec (.tick now) s = .next (emit (.error .timeout (.address r.address)) { s with
      clock := now, inFlight := none }) := by
  have hd := dispatchStep_inFlight (now := now) (s := { s with clock := now }) hf
  have hto := timeoutStep_closed (s := { s with clock := now }) hf hl hw
  rw [exec_tick hm ht, hd, hto]

end

/-- Settles O29: the condition is the spacing test. -/
theorem tickDispatches : Obligations.TickDispatches := fun _ _ _ _ hm ht hf hq hs =>
  exec_tick_dispatches hm ht hf hq (spacingPassed_iff.mpr hs)

/-- Settles O31: of the three things a TICK can do, the hypothesis excludes the dispatch and the timeout. -/
theorem tickOtherwiseIdle : Obligations.TickOtherwiseIdle := by
  intro now s hm ht hidle
  rw [exec_tick hm ht]
  obtain ⟨r, rest, hf, hq, hs, -⟩ | ⟨r, t, hf, hl, hw, -⟩ | e := tickSteps_cases now { s with clock := now }
  case inl =>
    obtain ⟨-, hnil | ⟨t, hl, hlt⟩⟩ | ⟨r', hf', -⟩ := hidle
    · cases hq.symm.trans hnil
    · have hle : s.cfg.tGap ≤ elapsed s.cfg now t := by simpa [spacingPassed, hl] using hs
      exact absurd hlt hle.not_gt
    · cases hf.symm.trans hf'
  case inr.inl =>
    have hopen := windowClosed_iff.mp hw
    obtain ⟨hf', -⟩ | ⟨r', -, hl' | ⟨t', hl', hle⟩⟩ := hidle
    · cases hf.symm.trans hf'
    · cases hl.symm.trans hl'
    · cases hl.symm.trans hl'
      exact absurd hopen hle.not_gt
  case inr.inr => rw [e]

/-! ### The events after one more output -/

theorem events_record (o : Output) (s : State) :
    events (record o s) = events s ++ (Entry.mk s.clock o).event?.toList := by
  simp only [events, record_history, List.filterMap_append]
  cases he : (Entry.mk s.clock o).event? <;> simp [he]

@[simp] theorem events_record_event (e : Event) (s : State) : events (record (.event e) s) = events s ++ [e] :=
  events_record _ s

@[simp] theorem events_record_action (a : Action) (s : State) : events (record (.action a) s) = events s := by
  simp [events_record, Entry.event?]

/-- Settles O33: the first TICK times out and leaves lastSendTime, so the second finds the spacing passed. -/
theorem timeoutThenNextDispatch : Obligations.TimeoutThenNextDispatch := by
  intro s r q rest t n1 n2 hm hc hclock h12 hf hl hq hlate hgap
  have hw : windowClosed n1 t s = true := windowClosed_iff.mpr (by rw [elapsed_unbounded hc]; omega)
  have hs : s.cfg.tGap ≤ elapsed s.cfg n2 t := by rw [elapsed_unbounded hc]; omega
  have h1 := exec_tick_timesOut hm (timeAccepted_iff.mpr hclock) hf hl hw
  have h2 := exec_tick_dispatches
    (s := emit (.error .timeout (.address r.address)) { s with clock := n1, inFlight := none })
    hm (timeAccepted_iff.mpr h12) rfl hq (spacingPassed_iff.mpr (.inr ⟨t, hl, hs⟩))
  refine ⟨_, _, h1, h2, ?_, ?_, rfl, hq, ?_, ?_, rfl, rfl⟩
  · exact events_record_event _ _
  · exact writes_record_event _ _
  · exact events_record_action _ _
  · exact writes_record_write _ _

end Sys2Proof.Machine
end

section
/-! The response correlator of 44_correlator.md. RX waits or resolves (R211, R212); a resolution is determined by
what DECODE answers for the buffer and, for a valid frame of this slave, by the response event of its function
code (R214 to R222). A response row is RX of its frame. -/

namespace Sys2Proof.Machine

open Host

/-! ### What DECODE answers for a receive buffer -/

/-- A frame is its payload with two bytes before it and a trailer of two bytes after it. -/
theorem length_crcAppend_frame (sid fc : Byte) (P : Bytes) :
    (crcAppend ([sid, fc] ++ P)).length = 4 + P.length := by
  simp only [crcAppend, le16, List.length_append, List.length_cons, List.length_nil]
  omega

/-- Every sequence of at least four bytes is a slave id, a function code, a payload and a trailer. -/
theorem exists_frame_parts {B : Bytes} (h : 4 ≤ B.length) :
    ∃ sid fc P l m, B = [sid, fc] ++ P ++ [l, m] := by
  match B with
  | sid :: fc :: rest =>
    have hrest : 2 ≤ rest.length := by simpa using h
    obtain ⟨P, l, m, rfl⟩ := exists_trailer hrest
    exact ⟨sid, fc, P, l, m, rfl⟩

theorem frameDecode_of_foreign {slaveId sid : Byte} {B : Bytes} (hlen : 4 ≤ B.length)
    (hv : crcCheck B = some true) (hsid : B.head? = some sid) (hne : sid ≠ slaveId) :
    frameDecode slaveId B = some .notForUs := by
  obtain ⟨sid', fc, P, l, m, rfl⟩ := exists_frame_parts hlen
  obtain rfl : sid' = sid := by simpa using hsid
  rw [frameDecode_of_valid slaveId hv, if_neg hne]

theorem frameDecode_of_eq_crcAppend {sid fc : Byte} {B P : Bytes} (hB : B = crcAppend ([sid, fc] ++ P)) :
    frameDecode sid B = some (.ok sid fc P) := by
  rw [hB]
  exact (frameDecode_of_valid sid (crcCheck_crcAppend _)).trans (congrArg some (if_pos rfl))

/-! ### The response event of each function code -/

section
variable (address : U16)

theorem responseEvent_coil {payload : Bytes} {v : CoilValue} (h : readCoils payload = some v) :
    responseEvent address 0x01#8 payload = .ok (some (.coilRead address v)) := by
  rw [responseEvent, if_pos rfl, h]

theorem responseEvent_register (n : Byte) (data : Bytes) :
    responseEvent address 0x03#8 (n :: data) = .ok (some (.registerRead address (data.take n.toNat))) := rfl

theorem responseEvent_coilWritten (P : Bytes) :
    responseEvent address 0x05#8 P = .ok (some (.coilWritten address)) := rfl

theorem responseEvent_registerWritten (P : Bytes) :
    responseEvent address 0x10#8 P = .ok (some (.registerWritten address)) := rfl

theorem responseEvent_unknown {fc : Byte} (P : Bytes) (h1 : fc ≠ 0x01#8) (h3 : fc ≠ 0x03#8) (h5 : fc ≠ 0x05#8)
    (h16 : fc ≠ 0x10#8) : responseEvent address fc P = .ok none := by
  rw [responseEvent, if_neg h1, if_neg h3, if_neg h5, if_neg h16]

end

theorem readCoils_single (b : Byte) (more : Bytes) :
    readCoils (0x01#8 :: b :: more) = some (.single (decide (b = 0x01#8))) := rfl

theorem readCoils_sequence {n : Byte} (h : n ≠ 0x01#8) (data : Bytes) :
    readCoils (n :: data) = some (.sequence ((data.take n.toNat).map fun b => decide (b = 0x01#8))) :=
  if_neg h

/-! ### The resolution step, by what DECODE answers -/

section
variable {s : State} (r : PendingRequest)

theorem resolve_checksumError (hd : frameDecode s.slaveId s.receiveBuffer = some .checksumError) :
    resolve r s = .next (clearBuffer (emit (.error .checksumError .none) { s with inFlight := none })) := by
  simp only [resolve, hd]

theorem resolve_notForUs (hd : frameDecode s.slaveId s.receiveBuffer = some .notForUs) :
    resolve r s = .next { s with
      inFlight := none
      receiveBuffer := if s.cfg.clearRxOnForeign then [] else s.receiveBuffer } := by
  simp only [resolve, hd]
  cases s.cfg.clearRxOnForeign <;> rfl

variable {r} {sid fc : Byte} {P : Bytes} (hd : frameDecode s.slaveId s.receiveBuffer = some (.ok sid fc P))
include hd

theorem resolve_event {e : Event} (he : responseEvent r.address fc P = .ok (some e)) :
    resolve r s = .next (clearBuffer (emit e { s with inFlight := none })) := by
  simp only [resolve, hd, he]

theorem resolve_noEvent (he : responseEvent r.address fc P = .ok none) :
    resolve r s = .next (clearBuffer { s with inFlight := none }) := by
  simp only [resolve, hd, he]

theorem resolve_refused {e : Refusal} (he : responseEvent r.address fc P = .error e) :
    resolve r s = .refused e := by
  simp only [resolve, hd, he]

end

/-! ### RX that waits, and RX that is refused -/

theorem receive_overflows {chunk : Bytes} {s : State} (hm : s.mode = .running)
    (ho : overflowsBuffer chunk s = true) : receive chunk s = .refused .receiveBufferFull := by
  rw [receive, requireRunning_running hm, if_pos ho]

/-- Settles O34: RX with nothing in flight and RX below the expected length. -/
theorem rxAppendsAndWaits : Obligations.RxAppendsAndWaits := by
  rintro chunk s hm ho (hf | ⟨r, hf, hl⟩)
  · exact receive_idle hm ho hf
  · exact receive_short hm ho hf hl

/-- Bytes already in the buffer and bytes of the chunk count alike towards RXCAP. -/
theorem overflowsBuffer_append (c1 c2 : Bytes) (s : State) :
    overflowsBuffer c2 { s with receiveBuffer := s.receiveBuffer ++ c1 } = overflowsBuffer (c1 ++ c2) s := by
  simp only [overflowsBuffer, List.length_append, Nat.add_assoc]

theorem overflowsBuffer_append_of_overflows {c1 : Bytes} {s : State} (h : overflowsBuffer c1 s = true)
    (c2 : Bytes) : overflowsBuffer (c1 ++ c2) s = true := by
  cases hcap : s.cfg.rxCapacity with
  | none => simp [overflowsBuffer_unbounded hcap] at h
  | some n =>
    rw [overflowsBuffer_iff hcap] at h ⊢
    simp only [List.length_append] at h ⊢
    omega

/-- Once the first bytes are in the buffer, RX of the rest is RX of all. -/
theorem receive_append (c1 c2 : Bytes) (s : State) :
    receive c2 { s with receiveBuffer := s.receiveBuffer ++ c1 } = receive (c1 ++ c2) s := by
  simp only [receive, requireRunning, overflowsBuffer_append, List.append_assoc]

/-- Settles O42: the first RX is refused for the reason that stops the RX of both chunks, or it waits and leaves
the buffer from which the second RX goes on. -/
theorem chunkingDoesNotMatter : Obligations.ChunkingDoesNotMatter := by
  intro c1 c2 s hwait
  cases hm : s.mode with
  | refused =>
    have hrefused (c : Bytes) : exec (.rx c) s = .refused .notRunning :=
      refusedModeRefusesOperations (.rx c) s hm nofun
    simp only [runList, hrefused]
  | running =>
    cases ho : overflowsBuffer c1 s with
    | true =>
      have h1 : exec (.rx c1) s = .refused .receiveBufferFull := receive_overflows hm ho
      have h12 : exec (.rx (c1 ++ c2)) s = .refused .receiveBufferFull :=
        receive_overflows hm (overflowsBuffer_append_of_overflows ho c2)
      simp only [runList, h1, h12]
    | false =>
      have hshort : s.inFlight = none ∨ ∃ r, s.inFlight = some r ∧
          (s.receiveBuffer ++ c1).length < r.expectedResponseLength := by
        cases hf : s.inFlight with
        | none => exact .inl rfl
        | some r => exact .inr ⟨r, rfl, hwait r hf⟩
      have h1 := rxAppendsAndWaits c1 s hm ho hshort
      have h2 : exec (.rx c2) { s with receiveBuffer := s.receiveBuffer ++ c1 } = exec (.rx (c1 ++ c2)) s :=
        receive_append c1 c2 s
      simp only [runList, h1, h2]
      cases exec (.rx (c1 ++ c2)) s <;> rfl

/-! ### RX that resolves -/

section
variable {chunk : Bytes} {s : State} {r : PendingRequest} (hm : s.mode = .running)
  (ho : overflowsBuffer chunk s = false) (hf : s.inFlight = some r)
  (hl : r.expectedResponseLength ≤ (s.receiveBuffer ++ chunk).length)
include hm ho hf hl

theorem exec_rx_resolves :
    exec (.rx chunk) s = resolve r { s with receiveBuffer := s.receiveBuffer ++ chunk } :=
  receive_resolves hm ho hf hl

variable {fc : Byte} {P : Bytes} (hB : s.receiveBuffer ++ chunk = crcAppend ([s.slaveId, fc] ++ P))
include hB

theorem exec_rx_event {e : Event} (he : responseEvent r.address fc P = .ok (some e)) :
    exec (.rx chunk) s = .next { s with
      inFlight := none
      receiveBuffer := []
      history := s.history ++ [{ time := s.clock, output := .event e }] } :=
  (exec_rx_resolves hm ho hf hl).trans (resolve_event (frameDecode_of_eq_crcAppend hB) he)

theorem exec_rx_noEvent (he : responseEvent r.address fc P = .ok none) :
    exec (.rx chunk) s = .next { s with inFlight := none, receiveBuffer := [] } :=
  (exec_rx_resolves hm ho hf hl).trans (resolve_noEvent (frameDecode_of_eq_crcAppend hB) he)

theorem exec_rx_refused {e : Refusal} (he : responseEvent r.address fc P = .error e) :
    exec (.rx chunk) s = .refused e :=
  (exec_rx_resolves hm ho hf hl).trans (resolve_refused (frameDecode_of_eq_crcAppend hB) he)

end

/-- Settles O35: DECODE answers ChecksumError before it looks at the slave id. -/
theorem rxChecksumError : Obligations.RxChecksumError := fun _ s r hm ho hf hl hlen hcrc =>
  ⟨.none, (exec_rx_resolves hm ho hf hl).trans
    (resolve_checksumError r (frameDecode_of_invalid s.slaveId hlen hcrc))⟩

/-- Settles O36: DECODE answers NotForUs. -/
theorem rxForeignFrame : Obligations.RxForeignFrame := fun _ _ r _ hm ho hf hl hlen hcrc hsid hne =>
  (exec_rx_resolves hm ho hf hl).trans (resolve_notForUs r (frameDecode_of_foreign hlen hcrc hsid hne))

/-- Settles O37: the coil value is what READ.COILS reads from the payload. -/
theorem rxCoilRead : Obligations.RxCoilRead := by
  intro chunk data s r n hm ho hf hB hl
  refine ⟨?single, fun hn => ?sequence⟩
  case single =>
    rintro b more rfl rfl
    exact exec_rx_event hm ho hf hl hB (responseEvent_coil r.address (readCoils_single b more))
  case sequence =>
    exact exec_rx_event hm ho hf hl hB (responseEvent_coil r.address (readCoils_sequence hn data))

/-- Settles O38: the bytes are what READ.REGS reads from the payload. -/
theorem rxRegisterRead : Obligations.RxRegisterRead := fun _ data _ r n hm ho hf hB hl =>
  exec_rx_event hm ho hf hl hB (responseEvent_register r.address n data)

/-- Settles O39: the response event of the two write codes does not look at the payload. -/
theorem rxWriteAcknowledged : Obligations.RxWriteAcknowledged := by
  intro chunk P s r fc hm ho hf hB hl
  constructor
  · rintro rfl
    exact exec_rx_event hm ho hf hl hB (responseEvent_coilWritten r.address P)
  · rintro rfl
    exact exec_rx_event hm ho hf hl hB (responseEvent_registerWritten r.address P)

/-- Settles O40: a code that is none of the four has no response event. -/
theorem rxUnknownCode : Obligations.RxUnknownCode := fun _ P _ r _ hm ho hf hB hl h1 h3 h5 h16 =>
  exec_rx_noEvent hm ho hf hl hB (responseEvent_unknown r.address P h1 h3 h5 h16)

/-- Settles O41: the capacity test stops RX before it appends, and READ.COILS has no byte to read. -/
theorem rxRefusals : Obligations.RxRefusals := by
  refine ⟨fun chunk s cap hm hcap hlen => ?capacity, fun chunk s r hm ho hf hr hB => ?missing⟩
  case capacity => exact receive_overflows hm ((overflowsBuffer_iff hcap chunk).mpr hlen)
  case missing =>
    have hl : r.expectedResponseLength ≤ (s.receiveBuffer ++ chunk).length := by
      rw [hB]
      exact hr
    exact exec_rx_refused (P := [0x01]) hm ho hf hl hB rfl

/-! ### The response rows -/

/-- Settles O43: the meaning of each row is RX of the bytes that lay it out. -/
theorem responseRowsAreReceived : Obligations.ResponseRowsAreReceived := by
  intro i frame s hk hframe
  cases i with
  | rdcoilRsp | rdregRsp | wrcoilRsp | wrregRsp | unknownRsp =>
    obtain rfl := Option.some.inj hframe
    rfl
  | rx => cases hframe
  | rdcoilReq | rdregReq | wrcoilReq | wrregReq | enqRdcoil | enqRdreg | enqWrcoil | enqWrreg | tick
  | trOpened | trClosed | trError | reset | crc16 | crcAppend | crcCheck | frameEncode | frameDecode | f2w
  | w2f => cases hk

section
variable {i : Instr} {s : State} {r : PendingRequest} (hm : s.mode = .running) (hcap : s.cfg.rxCapacity = none)
  (hbuf : s.receiveBuffer = []) (hf : s.inFlight = some r) (hk : i.kind = .receive) {fc : Byte} {P : Bytes}
  (hframe : frameBytes i = some (crcAppend ([s.slaveId, fc] ++ P))) (hl : r.expectedResponseLength ≤ 4 + P.length)
include hm hcap hbuf hf hk hframe hl

theorem exec_responseRow :
    exec i s = resolve r { s with receiveBuffer := crcAppend ([s.slaveId, fc] ++ P) } := by
  have hB : s.receiveBuffer ++ crcAppend ([s.slaveId, fc] ++ P) = crcAppend ([s.slaveId, fc] ++ P) := by
    rw [hbuf, List.nil_append]
  have hlen : r.expectedResponseLength ≤ (s.receiveBuffer ++ crcAppend ([s.slaveId, fc] ++ P)).length := by
    rwa [hB, length_crcAppend_frame]
  rw [responseRowsAreReceived i _ s hk hframe, exec_rx_resolves hm (overflowsBuffer_unbounded hcap _) hf hlen, hB]

theorem exec_responseRow_event {e : Event} (he : responseEvent r.address fc P = .ok (some e)) :
    exec i s = .next { s with
      inFlight := none
      history := s.history ++ [{ time := s.clock, output := .event e }] } := by
  rw [exec_responseRow hm hcap hbuf hf hk hframe hl, resolve_event (frameDecode_of_eq_crcAppend rfl) he, hbuf]
  rfl

theorem exec_responseRow_noEvent (he : responseEvent r.address fc P = .ok none) :
    exec i s = .next { s with inFlight := none } := by
  rw [exec_responseRow hm hcap hbuf hf hk hframe hl, resolve_noEvent (frameDecode_of_eq_crcAppend rfl) he, hbuf]
  rfl

end

/-- Settles O44: the frame of each row with the right checksum is its fields with CRC.APPEND, and its response
event is the one of its function code. -/
theorem responseRowsComplete : Obligations.ResponseRowsComplete := by
  intro s r hm hcap hbuf hf
  refine ⟨fun b more hl => ?single, fun n data hn hl => ?sequence, fun n data hl => ?register,
    fun x0 x1 x2 x3 hl => ⟨?coilWritten, ?registerWritten⟩, fun fc P hfc hl => ?unknown⟩
  case single =>
    exact exec_responseRow_event hm hcap hbuf hf rfl rfl (by simp only [List.length_cons]; omega)
      (responseEvent_coil r.address (readCoils_single b more))
  case sequence =>
    exact exec_responseRow_event hm hcap hbuf hf rfl rfl (by simp only [List.length_cons]; omega)
      (responseEvent_coil r.address (readCoils_sequence hn data))
  case register =>
    exact exec_responseRow_event hm hcap hbuf hf rfl rfl (by simp only [List.length_cons]; omega)
      (responseEvent_register r.address n data)
  case coilWritten =>
    exact exec_responseRow_event (P := [x0, x1, x2, x3]) hm hcap hbuf hf rfl rfl hl
      (responseEvent_coilWritten r.address _)
  case registerWritten =>
    exact exec_responseRow_event (P := [x0, x1, x2, x3]) hm hcap hbuf hf rfl rfl hl
      (responseEvent_registerWritten r.address _)
  case unknown =>
    obtain ⟨hread, hwrite⟩ := isNamedFunctionCode_eq_false.mp hfc
    obtain ⟨h1, h3⟩ := not_or.mp hread
    obtain ⟨h5, h16⟩ := not_or.mp hwrite
    exact exec_responseRow_noEvent hm hcap hbuf hf rfl rfl hl (responseEvent_unknown r.address P h1 h3 h5 h16)

end Sys2Proof.Machine
end

section
/-! The errors and events of 60_exceptions.md. An operation adds at most one output to the history, which is at most
one event or one frame write (R249); an error is either handed to the caller (R246, R247) or put out as an event
(R243, R244). -/

namespace Sys2Proof.Machine

open Host

/-! ### One operation, at most one output -/

@[simp] theorem events_record_result (r : Result) (s : State) : events (record (.result r) s) = events s := by
  simp [events_record, Entry.event?]

/-- An operation takes no output back and adds at most one, an event only when it is a TICK, hands bytes to the
correlator, or is a notification of the transport. -/
theorem exec_history_cases {i : Instr} {s t : State} (h : exec i s = .next t) :
    t.history = s.history ∨ ∃ e : Entry, t.history = s.history ++ [e] ∧
      (e.event? ≠ none → i.kind = .tick ∨ i.kind = .receive ∨ i.kind = .transport) := by
  cases hk : i.kind with
  | function =>
    obtain ⟨-, r, rfl, -⟩ := exec_function_cases hk h
    exact .inr ⟨_, rfl, absurd rfl⟩
  | enqueue =>
    obtain ⟨-, now, -, rfl | ⟨d, -, rfl⟩⟩ := exec_enqueue_cases hk h
    · exact .inr ⟨_, rfl, absurd rfl⟩
    · obtain e | ⟨-, e⟩ := enqueue_cases d { s with clock := now } <;> rw [e]
      · exact .inr ⟨_, rfl, absurd rfl⟩
      · exact .inr ⟨_, rfl, absurd rfl⟩
  | tick =>
    obtain ⟨-, now, -, -, rfl⟩ := exec_tick_cases hk h
    obtain ⟨r, rest, -, -, -, e⟩ | ⟨r, u, -, -, -, e⟩ | e := tickSteps_cases now { s with clock := now } <;>
      rw [e]
    · exact .inr ⟨_, rfl, fun _ => .inl rfl⟩
    · exact .inr ⟨_, rfl, fun _ => .inl rfl⟩
    · exact .inl rfl
  | receive =>
    obtain ⟨chunk, h⟩ := exec_receive_cases hk h
    obtain ⟨-, -, rfl | ⟨r, -, -, hres⟩⟩ := receive_cases h
    · exact .inl rfl
    · obtain ⟨e, rfl⟩ | rfl | rfl := resolve_cases hres
      · exact .inr ⟨_, rfl, fun _ => .inr (.inl rfl)⟩
      · exact .inl rfl
      · exact .inl rfl
  | transport =>
    obtain ⟨-, rfl | ⟨e, rfl⟩⟩ := exec_transport_cases hk h
    · exact .inl rfl
    · exact .inr ⟨_, rfl, fun _ => .inr (.inr rfl)⟩
  | reset =>
    obtain ⟨id, -, ⟨-, rfl⟩ | ⟨-, rfl⟩⟩ := exec_reset_cases hk h
    · exact .inr ⟨_, rfl, absurd rfl⟩
    · exact .inr ⟨_, rfl, absurd rfl⟩

theorem events_of_history_append {s t : State} {new : List Entry} (h : t.history = s.history ++ new) :
    events t = events s ++ new.filterMap Entry.event? := by
  rw [events, h, List.filterMap_append, events]

theorem writes_of_history_append {s t : State} {new : List Entry} (h : t.history = s.history ++ new) :
    writes t = writes s ++ new.filterMap Entry.write? := by
  rw [writes, h, List.filterMap_append, writes]

/-- One output is no event or no frame write. -/
theorem Entry.event?_eq_none_or_write?_eq_none (e : Entry) : e.event? = none ∨ e.write? = none := by
  obtain ⟨time, output⟩ := e
  cases output with
  | action => exact .inl rfl
  | event => exact .inr rfl
  | result => exact .inl rfl

theorem Entry.length_events_add_length_writes_le (e : Entry) :
    ([e].filterMap Entry.event?).length + ([e].filterMap Entry.write?).length ≤ 1 := by
  obtain h | h := e.event?_eq_none_or_write?_eq_none
  · rw [List.filterMap_cons_none h]
    simpa using List.length_filterMap_le Entry.write? [e]
  · rw [List.filterMap_cons_none h]
    simpa using List.length_filterMap_le Entry.event? [e]

/-- Settles O51: the operation adds no output, or one, which is no event or no frame write. -/
theorem oneEventOneWritePerOperation : Obligations.OneEventOneWritePerOperation := by
  intro i s t h
  obtain hsame | ⟨e, hnew, hkind⟩ := exec_history_cases h
  · have hnil : t.history = s.history ++ [] := by rw [hsame, List.append_nil]
    exact ⟨⟨[], hnil.symm⟩, [], [], events_of_history_append hnil, writes_of_history_append hnil,
      Nat.zero_le 1, absurd rfl⟩
  · exact ⟨⟨[e], hnew.symm⟩, _, _, events_of_history_append hnew, writes_of_history_append hnew,
      e.length_events_add_length_writes_le, fun hes => hkind fun hnone => hes (List.filterMap_cons_none hnone)⟩

/-! ### Errors handed to the caller -/

/-- An enqueue operation with an address ADDR rejects raises InvalidAddress at its time. -/
theorem exec_enq_invalidAddress {a : AddrOperand} {x : U16} {value : Bool} {words : List U16} {now : Nat}
    {s : State} {i : Instr}
    (hi : i = .enqRdcoil a x now ∨ i = .enqRdreg a x now ∨ i = .enqWrcoil a value now ∨ i = .enqWrreg a words now)
    (hm : s.mode = .running) (ht : timeAccepted now s = true) (hw : words.length ≤ 127) (ha : addr a = none) :
    exec i s = .next (raise .invalidAddress { s with clock := now }) := by
  have hraise (request : State → U16 → PendingRequest) :
      enqueueRequest a now request s = .next (raise .invalidAddress { s with clock := now }) := by
    obtain ⟨-, hrunning⟩ := enqueueRequest_spec a now request s
    obtain ⟨-, hbad, -⟩ := hrunning hm ht
    exact hbad ha
  obtain rfl | rfl | rfl | rfl := hi
  case inl => exact hraise _
  case inr.inl => exact hraise _
  case inr.inr.inl => exact hraise _
  case inr.inr.inr => exact (execEnqWrreg_of_length_le a now hm hw).trans (hraise _)

/-- Settles O25: raising an error changes nothing but the history, by one result. -/
theorem invalidAddressIsRaised : Obligations.InvalidAddressIsRaised := by
  intro a x value words now s i hi hm ht hw ha
  exact ⟨_, exec_enq_invalidAddress hi hm ht hw ha, rfl, rfl, rfl, rfl, rfl, rfl,
    events_record_result _ _, writes_record_result _ _, by simp⟩

theorem validSlaveId_eq_false {id : Int} (h : id < 1 ∨ 255 < id) : validSlaveId id = false := by
  rw [validSlaveId, Bool.and_eq_false_iff, decide_eq_false_iff_not, decide_eq_false_iff_not]
  omega

theorem exec_reset_invalidIdentifier {id : Int} (h : validSlaveId id = false) (s : State) :
    exec (.reset id) s = .next (raise .invalidIdentifier { emptied s with
      mode := .refused, slaveId := Config.freeSlaveId s.freeCount, freeCount := s.freeCount + 1 }) := by
  rw [exec, execReset, h]
  exact if_neg Bool.false_ne_true

/-- Settles O47: the id fails the range test of RESET. -/
theorem resetRefusesBadIdentifier : Obligations.ResetRefusesBadIdentifier := fun _ s h =>
  ⟨_, exec_reset_invalidIdentifier (validSlaveId_eq_false h) s, rfl, rfl, rfl, rfl, rfl, rfl, rfl, rfl, rfl⟩

/-! ### Errors put out as events -/

/-- Settles O30: the condition is the test of the timeout step. -/
theorem tickTimesOut : Obligations.TickTimesOut := fun _ _ _ _ hm ht hf hl hlate =>
  exec_tick_timesOut hm ht hf hl (windowClosed_iff.mpr hlate)

section
variable {s : State} (hm : s.mode = .running)
include hm

theorem exec_trOpened : exec .trOpened s = .next (emit .ready s) := by
  rw [exec, execTrOpened, requireRunning_running hm]

theorem exec_trClosed : exec .trClosed s = .next s := by
  rw [exec, execTrClosed, requireRunning_running hm]

theorem exec_trError (cause : Bytes) :
    exec (.trError cause) s = .next (emit (.error .transportError (.cause cause)) s) := by
  rw [exec, execTrError, requireRunning_running hm]

end

/-- Settles O45: each notification passes the mode gate, and emitting an event changes nothing but the history. -/
theorem transportNotifications : Obligations.TransportNotifications := fun _ cause hm =>
  ⟨exec_trOpened hm, exec_trClosed hm, exec_trError hm cause⟩

/-! ### A TICK and an RX presented together (R251) -/

theorem runList_pair {i j : Instr} {s u t : State} (hi : exec i s = .next u) (hj : exec j u = .next t) :
    runList [i, j] s = .next t := by
  simp only [runList, hi, hj]

/-- With nothing in flight a TICK may dispatch, but it has no request to time out. -/
theorem exec_tick_nothingInFlight {s : State} {now : Nat} (hm : s.mode = .running) (ht : timeAccepted now s = true)
    (hf : s.inFlight = none) :
    ∃ t, exec (.tick now) s = .next t ∧ events t = events s ∧ t.receiveBuffer = s.receiveBuffer := by
  refine ⟨_, exec_tick hm ht, ?_⟩
  obtain ⟨r, rest, -, -, -, e⟩ | ⟨r, t, hf', -⟩ | e := tickSteps_cases now { s with clock := now }
  · rw [e]
    exact ⟨events_record_action _ _, rfl⟩
  · cases hf.symm.trans hf'
  · rw [e]
    exact ⟨rfl, rfl⟩

/-- Settles O57: the operation that comes first ends the request, so the TICK that follows RX has nothing to time
out and the RX that follows TICK has nothing to resolve. -/
theorem orderOfTickAndRxMatters : Obligations.OrderOfTickAndRxMatters := by
  intro s r t now chunk data n hm ht ho hf hl hlate hB hlen
  constructor
  · have hrx := rxRegisterRead chunk data s r n hm ho hf hB hlen
    obtain ⟨a, htick, hevents, hbuffer⟩ := exec_tick_nothingInFlight (now := now)
      (s := clearBuffer (emit (.registerRead r.address (data.take n.toNat)) { s with inFlight := none })) hm ht rfl
    exact ⟨a, runList_pair hrx htick, hevents.trans (events_record_event _ _), hbuffer⟩
  · have htick := exec_tick_timesOut hm ht hf hl (windowClosed_iff.mpr hlate)
    have hrx := receive_idle (chunk := chunk)
      (s := emit (.error .timeout (.address r.address)) { s with clock := now, inFlight := none }) hm ho rfl
    exact ⟨_, runList_pair htick hrx, events_record_event _ _, rfl, rfl⟩

end Sys2Proof.Machine
end

section
/-! RESET on a legal slave id (70_reset_and_hazards.md R280). -/

namespace Sys2Proof.Machine

open Host

theorem validSlaveId_eq_true_iff {id : Int} : validSlaveId id = true ↔ 1 ≤ id ∧ id ≤ 255 := by
  rw [validSlaveId, Bool.and_eq_true, decide_eq_true_eq, decide_eq_true_eq]

/-- The byte RESET latches is the id itself: nothing is lost in 8 bits. -/
theorem toNat_ofInt_of_validSlaveId {id : Int} (h : validSlaveId id = true) :
    ((BitVec.ofInt 8 id).toNat : Int) = id := by
  obtain ⟨hpos, hle⟩ := validSlaveId_eq_true_iff.mp h
  rw [BitVec.toNat_ofInt]
  omega

theorem exec_reset_opened {id : Int} (h : validSlaveId id = true) (s : State) :
    exec (.reset id) s =
      .next (act .opened { emptied s with mode := .running, slaveId := BitVec.ofInt 8 id }) :=
  if_pos h

/-- Settles O46: the id passes the range test of RESET, so it fits the byte that is latched. -/
theorem resetStarts : Obligations.ResetStarts := fun id s hpos hle =>
  have hv : validSlaveId id = true := validSlaveId_eq_true_iff.mpr ⟨hpos, hle⟩
  ⟨BitVec.ofInt 8 id, toNat_ofInt_of_validSlaveId hv, exec_reset_opened hv s⟩

end Sys2Proof.Machine
end
